-- ==== Sys2Proof/Word.lean ====
section
/-! DEFINITION. The word types of the block: what crosses its two ports (`00_scope.md` R6, R7). -/

namespace Sys2Proof

/-- An 8-bit number: the `v` operand of a command, and a device register address (R6 `ADDR_WIDTH`, R47). -/
abbrev Byte := BitVec 8

/-- A 16-bit word: a device register, a configuration word, the `w` operand (R6 `CFG_WIDTH`, `REG_WIDTH`, R47). -/
abbrev Word := BitVec 16

/-- A 32-bit word: a command word, a result, a binary32 pattern (R6 `CMD_WIDTH`, `RES_WIDTH`, R90). -/
abbrev Word32 := BitVec 32

end Sys2Proof
end

