-- ==== Sys2Proof/Config.lean ====
section
/-! DEFINITION. What an implementation of the block fixes (`00_scope.md` R6): the type of the one parameter record, the
names its rows are indexed by, and the values the spec leaves open. The record's VALUE is `Machine.params` in
Machine/Params.lean. -/

namespace Sys2Proof

/-- The five user-settable fields of the configuration word (`10_state.md` R18, `40_codec.md` R59). -/
inductive CfgField where
  /-- shutdown, R19 -/
  | sd
  /-- interrupt enable, R20 -/
  | ie
  /-- persistence, R22 -/
  | pers
  /-- integration time, physical pattern, R23 -/
  | it
  /-- gain / sensitivity, R24 -/
  | gain
deriving DecidableEq, Repr

/-- The error kinds of a response (`60_exceptions.md` R119). -/
inductive ErrorKind where
  | notInitialized
  | busError
  | invalidParameter
  | invalidDeviceState
  | illegalCommand
deriving DecidableEq, Repr

/-- How an inexact floating-point result is rounded. "There is one rounding mode; it cannot be changed" (`42_lux.md`
R90). -/
inductive Rounding where
  /-- to nearest, ties to even -/
  | nearestEven
deriving DecidableEq, Repr

/-- A binary floating-point format with one sign bit (`42_lux.md` R90). -/
structure FloatFormat where
  exponentBits : Nat
  fractionBits : Nat
  bias         : Nat
  rounding     : Rounding
deriving DecidableEq, Repr

/-- The parameter record of R6: "A model should keep them as one configuration record, so that a claim can name the
value it rests on." One field per row of its table, and the byte count of R33. -/
structure Config where
  /-- `CFG_WIDTH`: configuration word width -/
  cfgWidth : Nat
  /-- `REG_WIDTH`: width of every device register -/
  regWidth : Nat
  /-- `ADDR_WIDTH`: register address width -/
  addrWidth : Nat
  /-- `SD_W … GAIN_W`: the field widths -/
  width : CfgField → Nat
  /-- `SD_LO … GAIN_LO`: the low bit of each field (decision D1) -/
  lo : CfgField → Nat
  /-- `ADDR_CFG`: the register address of the configuration register -/
  addrCfg : Byte
  /-- `ADDR_ALS`: the register address of the ambient output -/
  addrAls : Byte
  /-- the byte count of every bus transaction of the block (R33) -/
  busBytes : BitVec 2
  /-- `N_IT`: how many integration times are defined -/
  nIt : Nat
  /-- `N_GAIN`: how many gains are defined -/
  nGain : Nat
  /-- `IT_L_INVALID`: the logical sentinel (decision D5) -/
  itLInvalid : BitVec 3
  /-- `IT_P_INVALID`: the physical sentinel (decision D5) -/
  itPInvalid : BitVec 4
  /-- `CFG_DEFAULT`: the word written by INIT -/
  cfgDefault : Word
  /-- the float format of the lux table and the result (decision D16) -/
  float : FloatFormat
  /-- `CMD_WIDTH`: command word width -/
  cmdWidth : Nat
  /-- `RES_WIDTH`: result width -/
  resWidth : Nat
  /-- the status code of `OK` (R119) -/
  okStatus : BitVec 3
  /-- the status codes of the error kinds (R119) -/
  errorStatus : ErrorKind → BitVec 3
  /-- `DEV_ADDR`: the device's address on the serial bus -/
  devAddr : Nat

/-- The value of `DEV_ADDR`: OPEN in R6 and decision D24 ("a fixed default value, overridable by the caller"; no number
is given). No rule of the block reads it. Log entry 13. -/
opaque Config.openDevAddr : Nat

/-- A product of binary32 patterns of which one is an infinity or a NaN. R94 speaks of "the exact real product of the
binary32 numbers a and b", which such a pattern has not, and R95 says the case cannot arise ("so needs no rule"): a free
value. Log entry 12. -/
opaque Config.f32MulNonFinite : Word32 → Word32 → Word32

end Sys2Proof
end

