-- ==== Sys2Proof/Machine/Params.lean ====
section
/-! DEFINITION. The value of the parameter record (`00_scope.md` R6). -/

namespace Sys2Proof.Machine

/-- The parameters of the block, row by row of R6's table. The types `Word`, `Byte` and `Word32` carry the widths
(Laws/Params.lean says that they agree). -/
def params : Config where
  cfgWidth := 16
  regWidth := 16
  addrWidth := 8
  width
    | .sd => 1
    | .ie => 1
    | .pers => 2
    | .it => 4
    | .gain => 2
  lo
    | .sd => 0
    | .ie => 1
    | .pers => 4
    | .it => 6
    | .gain => 11
  addrCfg := 0
  addrAls := 4
  busBytes := 2
  nIt := 6
  nGain := 4
  itLInvalid := 6
  itPInvalid := 0b1111
  cfgDefault := 0x0000
  float := { exponentBits := 8, fractionBits := 23, bias := 127, rounding := .nearestEven }
  cmdWidth := 32
  resWidth := 32
  okStatus := 0
  errorStatus
    | .notInitialized => 1
    | .busError => 2
    | .invalidParameter => 3
    | .invalidDeviceState => 4
    | .illegalCommand => 5
  devAddr := Config.openDevAddr

end Sys2Proof.Machine
end

