-- ==== Sys2Proof/Machine/ItTable.lean ====
section
/-! DEFINITION. The integration-time translation (`41_it_translation.md` R80 to R84): one table, read in both
directions. A lookup that finds nothing is `none`, and a sentinel only at the host port (R82). -/

namespace Sys2Proof.Machine

/-- The translation table of R81: logical index, physical pattern. -/
def itTable : List (Byte × BitVec 4) :=
  [(0, 0b1100), (1, 0b1000), (2, 0b0000), (3, 0b0001), (4, 0b0010), (5, 0b0011)]

/-- `it_enc` (R83) as a sum type: the pattern of a logical index, `none` for an index outside the table. -/
def itEnc (l : Byte) : Option (BitVec 4) :=
  (itTable.find? (fun row => row.1 == l)).map (fun row => row.2)

/-- `it_dec` (R84) as a sum type: the logical index of a pattern (all 8 bits compared), `none` for a pattern that is
not in the table. -/
def itDec (p : Byte) : Option (BitVec 3) :=
  (itTable.find? (fun row => row.2.setWidth 8 == p)).map (fun row => row.1.setWidth 3)

/-- `it_enc` as the host port spells it: `IT_P_INVALID` for `none` (R82, R83). -/
def itEncPort (l : Byte) : BitVec 4 := (itEnc l).getD params.itPInvalid

/-- `it_dec` as the host port spells it: `IT_L_INVALID` for `none` (R82, R84). -/
def itDecPort (p : Byte) : BitVec 3 := (itDec p).getD params.itLInvalid

/-- The integration time in milliseconds of a logical index: `25 * 2^l` (R80). The block never uses it. -/
def itMillis (l : Nat) : Nat := 25 * 2 ^ l

end Sys2Proof.Machine
end

