-- ==== Sys2Proof/Machine/Fields.lean ====
section
/-! DEFINITION. The bit-packer/unpacker: fields of the configuration word (`10_state.md` R18 to R24, `40_codec.md` R59
to R63) and the compact field record (`30_encoding.md` R51). -/

namespace Sys2Proof.Machine

/-- The field's value mask, `2^W_F - 1` (R59). -/
def fieldOnes (f : CfgField) : Word := BitVec.ofNat 16 (2 ^ params.width f - 1)

/-- `MASK_F = (2^W_F - 1) << LO_F` (R59). -/
def fieldMask (f : CfgField) : Word := fieldOnes f <<< params.lo f

/-- `extract(F, w) = (w >> LO_F) & (2^W_F - 1)` (R60), zero-extended to 16 bits. -/
def fieldExtract (f : CfgField) (w : Word) : Word := (w >>> params.lo f) &&& fieldOnes f

/-- `insert(F, w, x) = (w & ~MASK_F) | (x << LO_F)` (R61), for an x that fits the field. -/
def fieldInsert (f : CfgField) (w x : Word) : Word := (w &&& ~~~ (fieldMask f)) ||| (x <<< params.lo f)

/-- `pack(sd, ie, pers, it, gain)` (R63): a word from scratch, every reserved bit 0. -/
def pack (sd ie : BitVec 1) (pers : BitVec 2) (it : BitVec 4) (gain : BitVec 2) : Word :=
  sd.setWidth 16 <<< params.lo .sd ||| ie.setWidth 16 <<< params.lo .ie ||| pers.setWidth 16 <<< params.lo .pers |||
    it.setWidth 16 <<< params.lo .it ||| gain.setWidth 16 <<< params.lo .gain

/-- The compact field record of a word (R51, R72): GAIN [9:8], IT [7:4], PERS [3:2], IE [1], SD [0]. -/
def unpackRecord (w : Word) : BitVec 10 :=
  (fieldExtract .gain w).setWidth 2 ++ (fieldExtract .it w).setWidth 4 ++ (fieldExtract .pers w).setWidth 2 ++
    (fieldExtract .ie w).setWidth 1 ++ (fieldExtract .sd w).setWidth 1

/-- The word of a compact field record (R78): `pack(F[0], F[1], F[3:2], F[7:4], F[9:8])`. -/
def packRecord (r : BitVec 10) : Word :=
  pack (r.extractLsb' 0 1) (r.extractLsb' 1 1) (r.extractLsb' 2 2) (r.extractLsb' 4 4) (r.extractLsb' 8 2)

/-- `RSV_MASK = 0xE40C`: the reserved bits [15:13], [10] and [3:2] (R18, R21). -/
def reservedMask : Word := 0xE40C

/-- `CFG_DEFAULT`, a row of R6's record: powered on, interrupts disabled, persistence 1, 100 ms, gain ×1 (R79). It is
`pack(0, 0, 0, it_enc(2), 0)` (`cfgDefault_eq_pack` in Laws/Fields.lean). -/
def cfgDefault : Word := params.cfgDefault

/-- The crossings a persistence field value asks for: 1, 2, 4, 8 (R22). The block never uses it. -/
def crossings (p : Nat) : Nat := 2 ^ p

/-- The gain a gain field value stands for, in eighths: ×1, ×2, ×1/8, ×1/4 (R24). The block never uses it. -/
def gainEighths (g : Nat) : Nat := [8, 16, 1, 2].getD g 0

end Sys2Proof.Machine
end

