-- ==== Sys2Proof/Machine/Operands.lean ====
section
/-! DEFINITION. The reading of the `v` operand (`30_encoding.md` R49): which values an operation takes, all 8 bits
compared, and what it makes of them. -/

namespace Sys2Proof.Machine

/-- The operand fits the field: `v < 2^W_F`, "all 8 bits of `v` compared" (R62). -/
def fitsField (f : CfgField) (v : Byte) : Bool := decide (v.toNat < 2 ^ params.width f)

/-- `max_F`, the largest legal operand of a setter (R107, R110 to R114). -/
def setMax : CfgField → Nat
  | .sd => 1
  | .ie => 1
  | .pers => 3
  | .it => 5
  | .gain => 3

/-- `translate_F(v)`: "v itself, except SETIT: it_enc(v)" (R107 step 4). -/
def setterValue (f : CfgField) (v : Byte) : Word :=
  match f with
  | .it => (itEncPort v).setWidth 16
  | .sd | .ie | .pers | .gain => v.setWidth 16

/-- A getter's value of the word it read: the field, and for IT its logical index or the logical sentinel (R101, R105). -/
def fieldReading (f : CfgField) (w : Word) : Word32 :=
  match f with
  | .it => (itDecPort ((fieldExtract .it w).setWidth 8)).setWidth 32
  | .sd | .ie | .pers | .gain => (fieldExtract f w).setWidth 32

/-- `P = v[0]`: whether the host supplies a bus (R49, R116). -/
def busSupplied (p : Byte) : Bool := p.getLsbD 0

end Sys2Proof.Machine
end

