-- ==== Sys2Proof/Syntax.lean ====
section
/-! DEFINITION. The 30 operations of the block, one constructor per row of spec/opcode_table.json (`30_encoding.md`
R53). A constructor holds the operands its operation reads and nothing else: the bits an operation ignores (R52) are
dropped by the decoder. -/

namespace Sys2Proof

/-- A command of the block (R53), with its operands in the order R57 writes them. -/
inductive Instr where
  /-- XSD w (R67) -/
  | xsd (w : Word)
  /-- XIE w (R68) -/
  | xie (w : Word)
  /-- XPERS w (R69) -/
  | xpers (w : Word)
  /-- XIT w (R70) -/
  | xit (w : Word)
  /-- XGAIN w (R71) -/
  | xgain (w : Word)
  /-- CFGUNPK w (R72) -/
  | cfgunpk (w : Word)
  /-- ISD v, w (R73) -/
  | isd (v : Byte) (w : Word)
  /-- IIE v, w (R74) -/
  | iie (v : Byte) (w : Word)
  /-- IPERS v, w (R75) -/
  | ipers (v : Byte) (w : Word)
  /-- IIT v, w (R76) -/
  | iit (v : Byte) (w : Word)
  /-- IGAIN v, w (R77) -/
  | igain (v : Byte) (w : Word)
  /-- CFGPACK F (R78): `f` is the `w` operand, whose bits 9..0 are the compact field record F of R51 -/
  | cfgpack (f : Word)
  /-- CFGDEF (R79) -/
  | cfgdef
  /-- ITENC l (R86) -/
  | itenc (l : Byte)
  /-- ITDEC p (R87) -/
  | itdec (p : Byte)
  /-- LUXRES g, t (R97) -/
  | luxres (g t : BitVec 4)
  /-- LUXMUL g, t, raw (R98) -/
  | luxmul (g t : BitVec 4) (raw : Word)
  /-- RDCFG (R100) -/
  | rdcfg
  /-- GETSD (R102) -/
  | getsd
  /-- GETIE (R103) -/
  | getie
  /-- GETPERS (R104) -/
  | getpers
  /-- GETIT (R105) -/
  | getit
  /-- GETGAIN (R106) -/
  | getgain
  /-- SETSD v (R110) -/
  | setsd (v : Byte)
  /-- SETIE v (R111) -/
  | setie (v : Byte)
  /-- SETPERS v (R112) -/
  | setpers (v : Byte)
  /-- SETIT l (R113) -/
  | setit (l : Byte)
  /-- SETGAIN v (R114) -/
  | setgain (v : Byte)
  /-- INIT p (R116): `p` is the `v` operand, whose bit 0 says whether a bus is supplied -/
  | init (p : Byte)
  /-- RDLUX (R118) -/
  | rdlux
deriving DecidableEq, Repr

end Sys2Proof
end

