-- ==== Sys2Proof/Machine/State.lean ====
section
/-! DEFINITION. The state of the whole system the spec describes: the block (`10_state.md` R15, R16), its host port
(`30_encoding.md` R46), its bus port with the transport and the device behind it (`20_memory.md` R34, R38 to R40), and
the reasons a step can stop. Plain data throughout. -/

namespace Sys2Proof.Machine

/-- A response (R48): "a model should use the sum type and treat `result` on failure as absent". -/
inductive Response where
  /-- status `OK` with the 32-bit result -/
  | ok (result : Word32)
  /-- an error kind, and no value -/
  | err (kind : ErrorKind)
deriving DecidableEq, Repr

/-- One answered bus transaction, as a trace records it (R31, R32; `95_test_vectors.md`). -/
inductive BusTxn where
  /-- `MemRead(a, 2)`: `some v` is `ok(v)`, `none` is `fail` -/
  | read (a : Byte) (got : Option Word)
  /-- `MemWrite(a, 2, v)`: whether it answered `ok` -/
  | write (a : Byte) (v : Word) (ok : Bool)
deriving DecidableEq, Repr

/-- What the bus transport does while nothing scripted says otherwise: R40's flag `bus_up`, with R143's transport that
never answers as a third value. -/
inductive BusLine where
  /-- `bus_up = 1`: every transaction is carried out on the device -/
  | up
  /-- `bus_up = 0`: every transaction answers `fail` -/
  | down
  /-- no transaction is answered (R143) -/
  | hung
deriving DecidableEq, Repr

/-- One act of the outside world on the device or the bus (R9 agent 4, R39). -/
inductive Change where
  /-- a device register takes a value the block did not write -/
  | reg (a : Byte) (v : Word)
  /-- the bus goes up, down, or stops answering -/
  | line (l : BusLine)
deriving DecidableEq, Repr

/-- How the transport treats one request (R38: "an oracle that answers each transaction"). -/
inductive Reply where
  /-- as the bus line and the device say (the reference device, R40) -/
  | asLine
  /-- `fail`, whatever the line says -/
  | fail
  /-- success; a read delivers `v`, whatever the register holds (R31's "unexpected bits", R138) -/
  | deliver (v : Word)
  /-- no answer at this turn: the block waits (R143) -/
  | silent
deriving DecidableEq, Repr

/-- The environment's part in one request: what changes on the device before it is answered (R39: "between any two
transactions"), and how it is answered. -/
structure Turn where
  changes : List Change
  reply   : Reply
deriving DecidableEq, Repr

/-- What can happen at the block between two transactions of its own. -/
inductive Input where
  /-- the host presents a command word (`cmd_valid`, `cmd`; R46) -/
  | command (c : Word32)
  /-- the host asserts `rst` (R46, R133) -/
  | reset
  /-- the outside world acts on the device (R39) -/
  | world (c : Change)
deriving DecidableEq, Repr

/-- The transaction a command in progress has requested and waits for, with the values that "live only inside one
operation" (R16) and are needed after the answer. -/
inductive Wait where
  /-- RDCFG's read of address 0 (R100) -/
  | rdcfg
  /-- a getter's read of address 0 (R101) -/
  | get (f : CfgField)
  /-- a setter's read of address 0; `v` is the operand (R107 step 3) -/
  | setRead (f : CfgField) (v : Byte)
  /-- a setter's write of address 0; `w` is cfg' (R107 step 6) -/
  | setWrite (w : Word)
  /-- INIT's write of address 0 (R116 step 2) -/
  | initWrite
  /-- RDLUX's first read (R118 step 2) -/
  | luxGain
  /-- RDLUX's second read; `g` is the gain index (R118 step 4) -/
  | luxTime (g : BitVec 4)
  /-- RDLUX's third read; `t` is the integration-time index, `none` the logical sentinel (R118 step 6) -/
  | luxCount (g : BitVec 4) (t : Option (BitVec 3))
deriving DecidableEq, Repr

/-- The device's register space (R28), byte by byte: register `a` is the two bytes it crosses the wire as (R35), the
first (low) one under key `2 * a`, the second under `2 * a + 1`. Keys rise strictly, and no zero byte is listed. -/
abbrev Memory := List Host.Cell

/-- The machine. `bound` is the block's one state bit; `pending` and `rsp` are its command in progress and its response
port; `mem` and `line` are the device and the transport; `inputs` and `turns` are what the environment is going to do;
`trace` is what has crossed the bus port, oldest first. -/
structure State where
  bound   : Bool
  pending : Option Wait
  rsp     : Option Response
  inputs  : List Input
  mem     : Memory
  line    : BusLine
  turns   : List Turn
  trace   : List BusTxn
deriving DecidableEq, Repr

/-- The reasons the machine stops with a fault: there is none. Every error of the spec is a status in a response
(R127), and a transport that never answers leaves the block waiting (R143), which is a state, not a stop. Safe: no step
ends in a fault where the hardware would go on. -/
inductive Fault where
deriving DecidableEq, Repr

/-- The reasons a step is refused. -/
inductive Refusal where
  /-- raised by `exec` for an instruction without a meaning: by no arm of this model. Safe. -/
  | notModelled (mnemonic : String)
  /-- raised by `step` when `rst` is asserted while a command is in progress: "treat a reset during a command as
  refused" (R133, U12). Safe: the model stops where the hardware goes on. -/
  | resetDuringCommand
deriving DecidableEq, Repr

/-- The machine right after reset: `bound = 0`, no command in progress, no response (R26, R133). The device's registers
are not given by any source (R27): an empty memory, every byte 0, log entry 1. The environment's fields are the model's
own choice: bus up, nothing scripted, nothing presented, log entry 2. -/
def State.reset : State where
  bound   := false
  pending := none
  rsp     := none
  inputs  := []
  mem     := []
  line    := .up
  turns   := []
  trace   := []

end Sys2Proof.Machine
end

