-- ==== Sys2Proof/Machine/Memory.lean ====
section
/-! DEFINITION. The device's register space (`20_memory.md` R28, R29, R35, R40): reads and writes of one byte of it, and
of one 16-bit register. The canonical form of the list is `Memory.wf`. -/

namespace Sys2Proof.Machine

/-- The byte at a key. A byte that is not listed reads as 0 (log entry 1). -/
def Memory.byte : Memory → Nat → Byte
  | [], _ => 0
  | (k', b) :: rest, k => if k = k' then b else Memory.byte rest k

/-- The memory without any cell at the key. -/
def Memory.erase (m : Memory) (k : Nat) : Memory := m.filter (fun c => c.1 != k)

/-- The memory with a cell put before the first larger key. -/
def Memory.place : Memory → Nat → Byte → Memory
  | [], k, b => [(k, b)]
  | c :: rest, k, b => if k < c.1 then (k, b) :: c :: rest else c :: Memory.place rest k b

/-- The memory with the byte at a key set. Setting 0 removes the cell, so that equal memories are equal lists. -/
def Memory.setByte (m : Memory) (k : Nat) (b : Byte) : Memory :=
  if b = 0 then m.erase k else (m.erase k).place k b

/-- The canonical form: keys rise strictly, and no byte listed is 0. -/
def Memory.wf : Memory → Bool
  | [] => true
  | [c] => c.2 != 0
  | c :: d :: rest => c.2 != 0 && decide (c.1 < d.1) && Memory.wf (d :: rest)

/-- The device's registers: addresses 0, 1, 2, 4, 5, 6 (R29, R40). Address 3 and 7 to 255 name none. -/
def mapped (a : Byte) : Bool := a == 0 || a == 1 || a == 2 || a == 4 || a == 5 || a == 6

/-- The key of a register's first wire byte; the second stands one higher. -/
def lowKey (a : Byte) : Nat := 2 * a.toNat

/-- The value of a device register: `v = {b1, b0}`, b0 the first byte on the wire (R35). -/
def Memory.reg (m : Memory) (a : Byte) : Word := m.byte (lowKey a + 1) ++ m.byte (lowKey a)

/-- The memory with a device register set: "the first byte sent is `v[7:0]`" (R35). -/
def Memory.setReg (m : Memory) (a : Byte) (v : Word) : Memory :=
  (m.setByte (lowKey a) (v.extractLsb' 0 8)).setByte (lowKey a + 1) (v.extractLsb' 8 8)

end Sys2Proof.Machine
end

