-- ==== Sys2Proof/Machine/Ops.lean ====
section
/-! DEFINITION. The shared operations of the block: answering the host (`30_encoding.md` R48), ending with an error
(`60_exceptions.md` R127), and the two bus primitives (`20_memory.md` R31, R32) over the transport and the device
(R38 to R40). -/

namespace Sys2Proof.Machine

/-- The response of the command in progress appears at the host port (R46). -/
def State.respond (s : State) (r : Response) : State := { s with rsp := some r }

/-- `return v`: status `OK` with result `zext_32(v)` (R8, R48). -/
def finish (v : Word32) (s : State) : State := s.respond (.ok v)

/-- `raise k`: the one way an operation fails (R8, R127). "The operation ends; the response carries the status code and
result 0"; nothing is saved, no mode changes, control goes nowhere, and the block's state is what it was. There is no
return from it (R128): the next command is decoded and executed as any other. -/
def raise (k : ErrorKind) (s : State) : State := s.respond (.err k)

/-- The block has requested a transaction and waits for its answer (R34, R143). -/
def await (p : Wait) (s : State) : State := { s with pending := some p }

/-- An answered transaction joins the trace (R41: the trace is the sequence of transactions on the port). -/
def State.record (s : State) (t : BusTxn) : State := { s with trace := s.trace ++ [t] }

/-- The gate on `bound` (R99 item 1): "If `bound = 0` it raises `NotInitialized`: no operand is examined, no bus
transaction is issued, nothing changes." -/
def gate (k : State → State) (s : State) : State := if s.bound then k s else raise .notInitialized s

/-- One act of the outside world (R39). A register that the device has not is not changed. -/
def applyChange (c : Change) (s : State) : State :=
  match c with
  | .reg a v => if mapped a then { s with mem := s.mem.setReg a v } else s
  | .line l => { s with line := l }

/-- The environment's turn at a request: the next scripted turn's changes happen (R39) and its reply is taken. With no
turn scripted nothing changes and the bus line decides (R40). -/
def takeTurn (s : State) : Reply × State :=
  match s.turns with
  | [] => (.asLine, s)
  | t :: rest => (t.reply, t.changes.foldl (fun s c => applyChange c s) { s with turns := rest })

/-- What the transport does with a request. -/
inductive Treatment where
  /-- it carries the transaction out on the device -/
  | carry
  /-- it reports success, with this data for a read -/
  | deliver (v : Word)
  /-- it reports failure -/
  | fail
  /-- it has not answered yet -/
  | silent
deriving DecidableEq, Repr

/-- The treatment a reply asks for, given the bus line (R38, R40, R143). -/
def treatment : Reply → BusLine → Treatment
  | .fail, _ => .fail
  | .deliver v, _ => .deliver v
  | .silent, _ => .silent
  | .asLine, .up => .carry
  | .asLine, .down => .fail
  | .asLine, .hung => .silent

/-- An answer of the transport: `ok`, `fail` (R31, R32), or none yet (R143). -/
inductive Answer (α : Type) where
  | ok (a : α)
  | fail
  | silent
deriving DecidableEq, Repr

/-- `MemRead(a, 2)` (R31): one transaction, recorded when it is answered. A transaction to an address without a register
answers `fail` (R40). -/
def memRead (a : Byte) (s : State) : Answer Word × State :=
  let turn := takeTurn s
  match treatment turn.1 turn.2.line with
  | .silent => (.silent, turn.2)
  | .fail => (.fail, turn.2.record (.read a none))
  | .deliver v => (.ok v, turn.2.record (.read a (some v)))
  | .carry =>
    if mapped a then (.ok (turn.2.mem.reg a), turn.2.record (.read a (some (turn.2.mem.reg a))))
    else (.fail, turn.2.record (.read a none))

/-- The device register has received `v` (R32); the transaction joins the trace. -/
def carryWrite (a : Byte) (v : Word) (s : State) : Answer Unit × State :=
  if mapped a then (.ok (), ({ s with mem := s.mem.setReg a v }).record (.write a v true))
  else (.fail, s.record (.write a v false))

/-- `MemWrite(a, 2, v)` (R32): "On `ok` the device register at a has received v. On `fail` this spec takes the device
register as unchanged." -/
def memWrite (a : Byte) (v : Word) (s : State) : Answer Unit × State :=
  let turn := takeTurn s
  match treatment turn.1 turn.2.line with
  | .silent => (.silent, turn.2)
  | .fail => (.fail, turn.2.record (.write a v false))
  | .deliver _ => carryWrite a v turn.2
  | .carry => carryWrite a v turn.2

/-- `cfg <- MemRead(a, 2) else raise BusError`, then the rest `k` of the operation; without an answer the block waits
as `p` says (R42: no retry, nothing after a failure). -/
def readThen (a : Byte) (p : Wait) (k : Word → State → State) (s : State) : State :=
  match memRead a s with
  | (.ok v, s1) => k v s1
  | (.fail, s1) => raise .busError s1
  | (.silent, s1) => await p s1

/-- `MemWrite(a, 2, v) else raise BusError`, then the rest `k` of the operation. -/
def writeThen (a : Byte) (v : Word) (p : Wait) (k : State → State) (s : State) : State :=
  match memWrite a v s with
  | (.ok _, s1) => k s1
  | (.fail, s1) => raise .busError s1
  | (.silent, s1) => await p s1

end Sys2Proof.Machine
end

