-- ==== Sys2Proof/Machine/Codec.lean ====
section
/-! DEFINITION. The codec family (`40_codec.md` R66 to R79): pure functions of the command's operands. -/

namespace Sys2Proof.Machine

/-- An X-operation: `return extract(F, w)` (R67 to R71). -/
def extractField (f : CfgField) (w : Word) (s : State) : State := finish ((fieldExtract f w).setWidth 32) s

/-- An I-operation: "if v >= 2^W_F then raise InvalidParameter", else `return insert(F, w, v)` (R62, R73 to R77). -/
def insertField (f : CfgField) (v : Byte) (w : Word) (s : State) : State :=
  if fitsField f v then finish ((fieldInsert f w (v.setWidth 16)).setWidth 32) s else raise .invalidParameter s

/-- XSD (R67) -/
def execXsd (w : Word) (s : State) : Host.Outcome State Fault Refusal := .next (extractField .sd w s)

/-- XIE (R68) -/
def execXie (w : Word) (s : State) : Host.Outcome State Fault Refusal := .next (extractField .ie w s)

/-- XPERS (R69) -/
def execXpers (w : Word) (s : State) : Host.Outcome State Fault Refusal := .next (extractField .pers w s)

/-- XIT (R70): the physical pattern, not translated -/
def execXit (w : Word) (s : State) : Host.Outcome State Fault Refusal := .next (extractField .it w s)

/-- XGAIN (R71) -/
def execXgain (w : Word) (s : State) : Host.Outcome State Fault Refusal := .next (extractField .gain w s)

/-- CFGUNPK (R72): the compact field record -/
def execCfgunpk (w : Word) (s : State) : Host.Outcome State Fault Refusal :=
  .next (finish ((unpackRecord w).setWidth 32) s)

/-- ISD (R73) -/
def execIsd (v : Byte) (w : Word) (s : State) : Host.Outcome State Fault Refusal := .next (insertField .sd v w s)

/-- IIE (R74) -/
def execIie (v : Byte) (w : Word) (s : State) : Host.Outcome State Fault Refusal := .next (insertField .ie v w s)

/-- IPERS (R75) -/
def execIpers (v : Byte) (w : Word) (s : State) : Host.Outcome State Fault Refusal := .next (insertField .pers v w s)

/-- IIT (R76): any 4-bit pattern, not checked against the table -/
def execIit (v : Byte) (w : Word) (s : State) : Host.Outcome State Fault Refusal := .next (insertField .it v w s)

/-- IGAIN (R77) -/
def execIgain (v : Byte) (w : Word) (s : State) : Host.Outcome State Fault Refusal := .next (insertField .gain v w s)

/-- CFGPACK (R78): `w[9:0]` is the record, `w[15:10]` is ignored -/
def execCfgpack (f : Word) (s : State) : Host.Outcome State Fault Refusal :=
  .next (finish ((packRecord (f.setWidth 10)).setWidth 32) s)

/-- CFGDEF (R79) -/
def execCfgdef (s : State) : Host.Outcome State Fault Refusal := .next (finish (cfgDefault.setWidth 32) s)

end Sys2Proof.Machine
end

