-- ==== Sys2Proof/Machine/ConfigAccess.lean ====
section
/-! DEFINITION. The configuration access family (`43_config_access.md` R99 to R114): read, get, set. -/

namespace Sys2Proof.Machine

/-- RDCFG from its read on (R100): all 16 bits as the device gave them. -/
def readConfig (s : State) : State :=
  readThen params.addrCfg .rdcfg (fun cfg => finish (cfg.setWidth 32)) s

/-- A getter from its read on (R101, R105). -/
def readField (f : CfgField) (s : State) : State :=
  readThen params.addrCfg (.get f) (fun cfg => finish (fieldReading f cfg)) s

/-- A setter from its write on (R107 steps 6 and 7); the write is never skipped. -/
def writeConfig (w : Word) (s : State) : State :=
  writeThen params.addrCfg w (.setWrite w) (finish 0) s

/-- A setter from its read on (R107 steps 3 to 7). -/
def modifyField (f : CfgField) (v : Byte) (s : State) : State :=
  readThen params.addrCfg (.setRead f v) (fun cfg => writeConfig (fieldInsert f cfg (setterValue f v))) s

/-- A setter (R107): the gate, then the operand's range, then the bus (R108, R126). -/
def setField (f : CfgField) (v : Byte) (s : State) : State :=
  gate (fun s => if setMax f < v.toNat then raise .invalidParameter s else modifyField f v s) s

/-- RDCFG (R100) -/
def execRdcfg (s : State) : Host.Outcome State Fault Refusal := .next (gate readConfig s)

/-- GETSD (R102) -/
def execGetsd (s : State) : Host.Outcome State Fault Refusal := .next (gate (readField .sd) s)

/-- GETIE (R103) -/
def execGetie (s : State) : Host.Outcome State Fault Refusal := .next (gate (readField .ie) s)

/-- GETPERS (R104) -/
def execGetpers (s : State) : Host.Outcome State Fault Refusal := .next (gate (readField .pers) s)

/-- GETIT (R105): the logical index, or the logical sentinel with status `OK` -/
def execGetit (s : State) : Host.Outcome State Fault Refusal := .next (gate (readField .it) s)

/-- GETGAIN (R106) -/
def execGetgain (s : State) : Host.Outcome State Fault Refusal := .next (gate (readField .gain) s)

/-- SETSD (R110) -/
def execSetsd (v : Byte) (s : State) : Host.Outcome State Fault Refusal := .next (setField .sd v s)

/-- SETIE (R111) -/
def execSetie (v : Byte) (s : State) : Host.Outcome State Fault Refusal := .next (setField .ie v s)

/-- SETPERS (R112) -/
def execSetpers (v : Byte) (s : State) : Host.Outcome State Fault Refusal := .next (setField .pers v s)

/-- SETIT (R113): the operand is the logical index -/
def execSetit (l : Byte) (s : State) : Host.Outcome State Fault Refusal := .next (setField .it l s)

/-- SETGAIN (R114) -/
def execSetgain (v : Byte) (s : State) : Host.Outcome State Fault Refusal := .next (setField .gain v s)

end Sys2Proof.Machine
end

