-- ==== Sys2Proof/Machine/Init.lean ====
section
/-! DEFINITION. The initialisation family (`44_init.md` R116). -/

namespace Sys2Proof.Machine

/-- INIT from its write on (R116 steps 2 to 4): `bound` becomes 1 only after the write succeeded. -/
def writeDefault (s : State) : State :=
  writeThen params.addrCfg cfgDefault .initWrite (fun s => finish 0 { s with bound := true }) s

/-- INIT (R116): it does not test `bound`, and reads nothing -/
def execInit (p : Byte) (s : State) : Host.Outcome State Fault Refusal :=
  .next (if busSupplied p then writeDefault s else raise .notInitialized s)

end Sys2Proof.Machine
end

