-- ==== Sys2Proof/Machine/Float32.lean ====
section
/-! DEFINITION. The binary32 arithmetic of `42_lux.md` (R90, R93, R94), exact before the one rounding, in the format of
the parameter record (R6). A magnitude is a natural number of units of 2^-149, the smallest positive binary32 number, so
every finite pattern has one. -/

namespace Sys2Proof.Machine

/-- The exponent field, bits 30 to 23 (R90). -/
def f32Exponent (a : Word32) : Nat := (a.extractLsb' params.float.fractionBits params.float.exponentBits).toNat

/-- The fraction field, bits 22 to 0 (R90). -/
def f32Fraction (a : Word32) : Nat := (a.extractLsb' 0 params.float.fractionBits).toNat

/-- The sign bit, bit 31 (R90). -/
def f32Sign (a : Word32) : BitVec 1 := a.extractLsb' (params.float.fractionBits + params.float.exponentBits) 1

/-- The exponent field of an infinity or a NaN: all ones. -/
def f32ExponentOnes : Nat := 2 ^ params.float.exponentBits - 1

/-- The pattern is a number: neither an infinity nor a NaN. -/
def f32Finite (a : Word32) : Bool := f32Exponent a != f32ExponentOnes

/-- The smallest positive number is 2 to the power of minus this: 149. -/
def f32UnitExponent : Nat := params.float.bias - 1 + params.float.fractionBits

/-- The magnitude of a finite pattern in units of 2^-149. For a normal number R90's `2^(exponent - 127) * (1 +
fraction / 2^23)` is `(2^23 + fraction) * 2^(exponent - 1)` of them; with exponent field 0 it is the fraction itself. -/
def f32Magnitude (a : Word32) : Nat :=
  if f32Exponent a = 0 then f32Fraction a
  else (2 ^ params.float.fractionBits + f32Fraction a) * 2 ^ (f32Exponent a - 1)

/-- `n / 2^k` rounded to the nearest integer, ties to even. -/
def roundShift (n k : Nat) : Nat :=
  let q := n / 2 ^ k
  let r := n % 2 ^ k
  if 2 * r < 2 ^ k then q else if 2 ^ k < 2 * r then q + 1 else q + q % 2

/-- `n / 2^k` rounded to an integer in the one rounding mode. -/
def roundQuotient : Rounding → Nat → Nat → Nat
  | .nearestEven, n, k => roundShift n k

/-- How many bits `n` has. -/
def bitLength (n : Nat) : Nat := if n = 0 then 0 else Nat.log2 n + 1

/-- The low 31 bits of the binary32 number nearest to `n` units of 2^-298, ties to even (R94). The result keeps 24
significant bits, fewer when that would go below 2^-149; a value too large for the format gives the pattern of
infinity (these two are log entry 14). -/
def roundMagnitude (n : Nat) : Nat :=
  let shift := max (bitLength n - (params.float.fractionBits + 1)) f32UnitExponent
  min ((shift - f32UnitExponent) * 2 ^ params.float.fractionBits + roundQuotient params.float.rounding n shift)
    (f32ExponentOnes * 2 ^ params.float.fractionBits)

/-- `f32_mul(a, b)` (R94): one rounding of the exact product. -/
def f32Mul (a b : Word32) : Word32 :=
  if f32Finite a && f32Finite b then
    (f32Sign a ^^^ f32Sign b) ++ BitVec.ofNat 31 (roundMagnitude (f32Magnitude a * f32Magnitude b))
  else Config.f32MulNonFinite a b

/-- `u16_to_f32(n)` (R93): the binary32 number equal to the unsigned integer n. -/
def u16ToF32 (n : Word) : Word32 :=
  if n = 0 then 0
  else
    let top := Nat.log2 n.toNat
    let one := 2 ^ params.float.fractionBits
    BitVec.ofNat 32 ((params.float.bias + top) * one + (n.toNat * 2 ^ (params.float.fractionBits - top) - one))

end Sys2Proof.Machine
end

