-- ==== Sys2Proof/Machine/LuxTable.lean ====
section
/-! DEFINITION. The lux-resolution table (`42_lux.md` R88, R91, R92): rows are gain indices, columns are LOGICAL
integration-time indices. -/

namespace Sys2Proof.Machine

/-- The stored binary32 patterns, as R91 prints them. -/
def luxTable : List (List Word32) :=
  [[0x3E6BEDFA, 0x3DEBEDFA, 0x3D6BEDFA, 0x3CEBEDFA, 0x3C6BEDFA, 0x3BEBEDFA],
   [0x3DEBEDFA, 0x3D6BEDFA, 0x3CEBEDFA, 0x3C6BEDFA, 0x3BEBEDFA, 0x3B6BEDFA],
   [0x3FEBEDFA, 0x3F6BEDFA, 0x3EEBEDFA, 0x3E6BEDFA, 0x3DEBEDFA, 0x3D6BEDFA],
   [0x3F6BEDFA, 0x3EEBEDFA, 0x3E6BEDFA, 0x3DEBEDFA, 0x3D6BEDFA, 0x3CEBEDFA]]

/-- The printed decimals of R88 in units of 0.0001 lux per count. The machine does not read them: they are what the
stored patterns are rounded from (R91). -/
def luxDecimals : List (List Nat) :=
  [[2304, 1152, 576, 288, 144, 72],
   [1152, 576, 288, 144, 72, 36],
   [18432, 9216, 4608, 2304, 1152, 576],
   [9216, 4608, 2304, 1152, 576, 288]]

/-- `lux_res(g, t)` (R92): guarded, `none` for an index outside the table. -/
def luxRes (g t : BitVec 4) : Option Word32 :=
  if params.nGain ≤ g.toNat ∨ params.nIt ≤ t.toNat then none
  else (luxTable[g.toNat]?).bind (fun row => row[t.toNat]?)

end Sys2Proof.Machine
end

