-- ==== Sys2Proof/Machine/Lux.lean ====
section
/-! DEFINITION. The lux family (`42_lux.md` R97, R98). -/

namespace Sys2Proof.Machine

/-- The guarded lookup of R92 and what is done with the constant; outside the table the kind `k` is raised (R97, R98,
R118: `InvalidParameter` for the caller's indices, `InvalidDeviceState` for the device's). -/
def withLuxRes (k : ErrorKind) (c : Option Word32) (use : Word32 → Word32) (s : State) : State :=
  match c with
  | some r => finish (use r) s
  | none => raise k s

/-- `f32_mul(u16_to_f32(raw), lux_res)`: the illuminance (R94). -/
def illuminance (raw : Word) (r : Word32) : Word32 := f32Mul (u16ToF32 raw) r

/-- LUXRES (R97) -/
def execLuxres (g t : BitVec 4) (s : State) : Host.Outcome State Fault Refusal :=
  .next (withLuxRes .invalidParameter (luxRes g t) id s)

/-- LUXMUL (R98) -/
def execLuxmul (g t : BitVec 4) (raw : Word) (s : State) : Host.Outcome State Fault Refusal :=
  .next (withLuxRes .invalidParameter (luxRes g t) (illuminance raw) s)

end Sys2Proof.Machine
end

