-- ==== Sys2Proof/Machine/ReadLux.lean ====
section
/-! DEFINITION. The illuminance read family (`45_readlux.md` R118): three reads, then the guarded lookup. -/

namespace Sys2Proof.Machine

/-- RDLUX from its third read on (R118 steps 6 to 8); the guard stands after the read. -/
def readCount (g : BitVec 4) (t : Option (BitVec 3)) (s : State) : State :=
  readThen params.addrAls (.luxCount g t)
    (fun raw => withLuxRes .invalidDeviceState (t.bind (fun t => luxRes g (t.setWidth 4))) (illuminance raw)) s

/-- RDLUX from its second read on (R118 steps 4 to 8). -/
def readTime (g : BitVec 4) (s : State) : State :=
  readThen params.addrCfg (.luxTime g) (fun cfg => readCount g (itDec ((fieldExtract .it cfg).setWidth 8))) s

/-- RDLUX from its first read on (R118 steps 2 to 8). -/
def readGain (s : State) : State :=
  readThen params.addrCfg .luxGain (fun cfg => readTime ((fieldExtract .gain cfg).setWidth 4)) s

/-- RDLUX (R118) -/
def execRdlux (s : State) : Host.Outcome State Fault Refusal := .next (gate readGain s)

end Sys2Proof.Machine
end

