-- ==== Sys2Proof/Machine/Translation.lean ====
section
/-! DEFINITION. The integration-time translation family (`41_it_translation.md` R86, R87). -/

namespace Sys2Proof.Machine

/-- ITENC (R86): `return it_enc(v)`; out of the table, the physical sentinel with status `OK` -/
def execItenc (l : Byte) (s : State) : Host.Outcome State Fault Refusal :=
  .next (finish ((itEncPort l).setWidth 32) s)

/-- ITDEC (R87): `return it_dec(v)`; out of the table, the logical sentinel with status `OK` -/
def execItdec (p : Byte) (s : State) : Host.Outcome State Fault Refusal :=
  .next (finish ((itDecPort p).setWidth 32) s)

end Sys2Proof.Machine
end

