-- ==== Sys2Proof/Machine/Dispatch.lean ====
section
/-! DEFINITION. One arm per operation of `30_encoding.md` R53. -/

namespace Sys2Proof.Machine

def exec (i : Instr) (s : State) : Host.Outcome State Fault Refusal :=
  match i with
  | .xsd w => Sys2Proof.Machine.execXsd w s
  | .xie w => Sys2Proof.Machine.execXie w s
  | .xpers w => Sys2Proof.Machine.execXpers w s
  | .xit w => Sys2Proof.Machine.execXit w s
  | .xgain w => Sys2Proof.Machine.execXgain w s
  | .cfgunpk w => Sys2Proof.Machine.execCfgunpk w s
  | .isd v w => Sys2Proof.Machine.execIsd v w s
  | .iie v w => Sys2Proof.Machine.execIie v w s
  | .ipers v w => Sys2Proof.Machine.execIpers v w s
  | .iit v w => Sys2Proof.Machine.execIit v w s
  | .igain v w => Sys2Proof.Machine.execIgain v w s
  | .cfgpack f => Sys2Proof.Machine.execCfgpack f s
  | .cfgdef => Sys2Proof.Machine.execCfgdef s
  | .itenc l => Sys2Proof.Machine.execItenc l s
  | .itdec p => Sys2Proof.Machine.execItdec p s
  | .luxres g t => Sys2Proof.Machine.execLuxres g t s
  | .luxmul g t raw => Sys2Proof.Machine.execLuxmul g t raw s
  | .rdcfg => Sys2Proof.Machine.execRdcfg s
  | .getsd => Sys2Proof.Machine.execGetsd s
  | .getie => Sys2Proof.Machine.execGetie s
  | .getpers => Sys2Proof.Machine.execGetpers s
  | .getit => Sys2Proof.Machine.execGetit s
  | .getgain => Sys2Proof.Machine.execGetgain s
  | .setsd v => Sys2Proof.Machine.execSetsd v s
  | .setie v => Sys2Proof.Machine.execSetie v s
  | .setpers v => Sys2Proof.Machine.execSetpers v s
  | .setit l => Sys2Proof.Machine.execSetit l s
  | .setgain v => Sys2Proof.Machine.execSetgain v s
  | .init p => Sys2Proof.Machine.execInit p s
  | .rdlux => Sys2Proof.Machine.execRdlux s

end Sys2Proof.Machine
end

