-- ==== Sys2Proof/WellFormed.lean ====
section
/-! DEFINITION. Which terms of `Instr` are instructions: an operand holds no bit that its operation ignores
(`30_encoding.md` R49, R50, R52, R57). The two operations that read only part of an operand field have a check; every
other operand is exactly as wide as its field. The legal RANGES of R49 are no check here: a command outside them is an
instruction, and answers `InvalidParameter`. -/

namespace Sys2Proof

/-- An instruction as an assembler writes it (R57): `INIT p` with "p = 0 or 1", and CFGPACK with the record
"`F` : bits(10)" of R51, so that no ignored bit is set. -/
def Instr.wellFormed : Instr → Bool
  | .init p => decide (p.toNat < 2)
  | .cfgpack f => decide (f.toNat < 2 ^ 10)
  | .xsd _ | .xie _ | .xpers _ | .xit _ | .xgain _ | .cfgunpk _ => true
  | .isd _ _ | .iie _ _ | .ipers _ _ | .iit _ _ | .igain _ _ | .cfgdef => true
  | .itenc _ | .itdec _ | .luxres _ _ | .luxmul _ _ _ => true
  | .rdcfg | .getsd | .getie | .getpers | .getit | .getgain => true
  | .setsd _ | .setie _ | .setpers _ | .setit _ | .setgain _ | .rdlux => true

end Sys2Proof
end

