-- ==== Sys2Proof/Decode.lean ====
section
/-! DEFINITION. The command word (`30_encoding.md` R47): decoding, total on every 32-bit word (R54, R55), and the encoder
written from the same table (R53, R57). -/

namespace Sys2Proof

/-- `op = cmd[31:24]` (R47). -/
def opOf (c : Word32) : Byte := c.extractLsb' 24 8

/-- `v = cmd[23:16]` (R47). -/
def vOf (c : Word32) : Byte := c.extractLsb' 16 8

/-- `w = cmd[15:0]` (R47). -/
def wOf (c : Word32) : Word := c.extractLsb' 0 16

/-- `g = v[7:4]`, the gain index of LUXRES and LUXMUL (R49). -/
def gainIndexOf (v : Byte) : BitVec 4 := v.extractLsb' 4 4

/-- `t = v[3:0]`, the integration-time index of LUXRES and LUXMUL (R49). -/
def timeIndexOf (v : Byte) : BitVec 4 := v.extractLsb' 0 4

/-- Why the decoder rejects a command word. -/
inductive DecodeReject where
  /-- `op` is none of the 30 values of R53 (R55) -/
  | illegalOpcode (op : Byte)
deriving DecidableEq, Repr

/-- R54: "Decoding is a total function of the 32-bit command word". The operation is chosen by `op` alone; CFGPACK reads
`w[9:0]` and INIT reads `v[0]`, and the bits an operation ignores are dropped (R52). -/
def decode (c : Word32) : Except DecodeReject Instr :=
  match (opOf c).toNat with
  | 0x01 => .ok (.xsd (wOf c))
  | 0x02 => .ok (.xie (wOf c))
  | 0x03 => .ok (.xpers (wOf c))
  | 0x04 => .ok (.xit (wOf c))
  | 0x05 => .ok (.xgain (wOf c))
  | 0x06 => .ok (.cfgunpk (wOf c))
  | 0x11 => .ok (.isd (vOf c) (wOf c))
  | 0x12 => .ok (.iie (vOf c) (wOf c))
  | 0x13 => .ok (.ipers (vOf c) (wOf c))
  | 0x14 => .ok (.iit (vOf c) (wOf c))
  | 0x15 => .ok (.igain (vOf c) (wOf c))
  | 0x16 => .ok (.cfgpack (wOf c &&& 0x03FF#16))
  | 0x17 => .ok .cfgdef
  | 0x20 => .ok (.itenc (vOf c))
  | 0x21 => .ok (.itdec (vOf c))
  | 0x30 => .ok (.luxres (gainIndexOf (vOf c)) (timeIndexOf (vOf c)))
  | 0x31 => .ok (.luxmul (gainIndexOf (vOf c)) (timeIndexOf (vOf c)) (wOf c))
  | 0x40 => .ok .rdcfg
  | 0x41 => .ok .getsd
  | 0x42 => .ok .getie
  | 0x43 => .ok .getpers
  | 0x44 => .ok .getit
  | 0x45 => .ok .getgain
  | 0x51 => .ok (.setsd (vOf c))
  | 0x52 => .ok (.setie (vOf c))
  | 0x53 => .ok (.setpers (vOf c))
  | 0x54 => .ok (.setit (vOf c))
  | 0x55 => .ok (.setgain (vOf c))
  | 0x60 => .ok (.init (vOf c &&& 0x01#8))
  | 0x70 => .ok .rdlux
  | _ => .error (.illegalOpcode (opOf c))

/-- The `op` value of an operation: the first column of R53's table. -/
def Instr.opcode : Instr → Byte
  | .xsd _ => 0x01 | .xie _ => 0x02 | .xpers _ => 0x03 | .xit _ => 0x04 | .xgain _ => 0x05 | .cfgunpk _ => 0x06
  | .isd _ _ => 0x11 | .iie _ _ => 0x12 | .ipers _ _ => 0x13 | .iit _ _ => 0x14 | .igain _ _ => 0x15
  | .cfgpack _ => 0x16 | .cfgdef => 0x17
  | .itenc _ => 0x20 | .itdec _ => 0x21
  | .luxres _ _ => 0x30 | .luxmul _ _ _ => 0x31
  | .rdcfg => 0x40 | .getsd => 0x41 | .getie => 0x42 | .getpers => 0x43 | .getit => 0x44 | .getgain => 0x45
  | .setsd _ => 0x51 | .setie _ => 0x52 | .setpers _ => 0x53 | .setit _ => 0x54 | .setgain _ => 0x55
  | .init _ => 0x60
  | .rdlux => 0x70

/-- The `v` operand of an operation, 0 where it has none (R57). -/
def Instr.vOperand : Instr → Byte
  | .isd v _ | .iie v _ | .ipers v _ | .iit v _ | .igain v _ => v
  | .itenc l => l
  | .itdec p => p
  | .luxres g t | .luxmul g t _ => g ++ t
  | .setsd v | .setie v | .setpers v | .setit v | .setgain v => v
  | .init p => p
  | .xsd _ | .xie _ | .xpers _ | .xit _ | .xgain _ | .cfgunpk _ | .cfgpack _ | .cfgdef => 0
  | .rdcfg | .getsd | .getie | .getpers | .getit | .getgain | .rdlux => 0

/-- The `w` operand of an operation, 0 where it has none (R57). -/
def Instr.wOperand : Instr → Word
  | .xsd w | .xie w | .xpers w | .xit w | .xgain w | .cfgunpk w => w
  | .isd _ w | .iie _ w | .ipers _ w | .iit _ w | .igain _ w => w
  | .cfgpack f => f
  | .luxmul _ _ raw => raw
  | .cfgdef | .itenc _ | .itdec _ | .luxres _ _ => 0
  | .rdcfg | .getsd | .getie | .getpers | .getit | .getgain => 0
  | .setsd _ | .setie _ | .setpers _ | .setit _ | .setgain _ | .init _ | .rdlux => 0

/-- A command word from its three fields: `op` in bits 31..24, `v` in 23..16, `w` in 15..0 (R47). -/
def commandWord (op v : Byte) (w : Word) : Word32 := op ++ v ++ w

/-- The command word of an instruction: R57's column "encoding". -/
def encode (i : Instr) : Word32 := commandWord i.opcode i.vOperand i.wOperand

/-- The command word a table row's bits stand for: bits above `nbits` are 0, and a command is 32 bits long (R47). It
crosses the host port as one word, so no byte order arises. -/
def tableWord (nbits w : Nat) : Word32 := BitVec.ofNat 32 (w % 2 ^ nbits)

/-- The instruction the decoder reads from a table row's bits. -/
def decodeTableWord (nbits w : Nat) : Option Instr :=
  match decode (tableWord nbits w) with
  | .ok i => some i
  | .error _ => none

end Sys2Proof
end

