-- ==== Sys2Proof/Machine/Flags.lean ====
section
/-! DEFINITION. The block has no flags and no condition codes (`10_state.md` R12): what an operation says of its outcome
is the status and result of its response (`30_encoding.md` R48, `60_exceptions.md` R119), spelled as bits here. -/

namespace Sys2Proof.Machine

/-- The status code of an error kind (R119, a row of R6's record). -/
def statusOfError (k : ErrorKind) : BitVec 3 := params.errorStatus k

/-- The `status` part of a response (R48, R119). -/
def Response.status : Response → BitVec 3
  | .ok _ => params.okStatus
  | .err k => statusOfError k

/-- The `result` part of a response: "When `status` is not `OK`: 0" (R48). -/
def Response.result : Response → Word32
  | .ok v => v
  | .err _ => 0

end Sys2Proof.Machine
end

