-- ==== Sys2Proof/Machine/HostPort.lean ====
section
/-! DEFINITION. What happens next at the block: an act of the outside world, a reset (`70_reset_and_hazards.md` R133),
the next command at the host port (`30_encoding.md` R46), or the answer the block waits for (R143). The port signals of
R34 and R46 are views of the state. -/

namespace Sys2Proof.Machine

/-- Which agent moves (R9), with the state it moves from. -/
inductive Event where
  /-- the outside world acts on the device -/
  | world (c : Change) (s : State)
  /-- the host asserts `rst` between commands -/
  | reset (s : State)
  /-- the host asserts `rst` during a command -/
  | resetInCommand
  /-- the transport has its turn at the request the block waits for -/
  | resume (p : Wait) (s : State)
  /-- the block accepts a command word -/
  | accept (c : Word32) (s : State)
  /-- no command is presented and none is in progress -/
  | idle
deriving DecidableEq, Repr

/-- The next event. An act of the outside world and a reset happen at once; a command waits until none is in progress
(R11, R41 item 3), and its acceptance ends the previous response. -/
def nextEvent (s : State) : Event :=
  match s.inputs, s.pending with
  | .world c :: rest, _ => .world c { s with inputs := rest }
  | .reset :: rest, none => .reset { s with inputs := rest }
  | .reset :: _, some _ => .resetInCommand
  | .command c :: rest, none => .accept c { s with inputs := rest, rsp := none }
  | .command _ :: _, some p => .resume p { s with pending := none }
  | [], some p => .resume p { s with pending := none }
  | [], none => .idle

/-- Reset of the block (R26, R133): `bound <- 0`, no command in progress, no response pending; the device and the bus
are not touched (R27). -/
def resetBlock (s : State) : State := { s with bound := false, pending := none, rsp := none }

/-- The command in progress goes on from the transaction it waits for. -/
def resumeAt (p : Wait) (s : State) : State :=
  match p with
  | .rdcfg => readConfig s
  | .get f => readField f s
  | .setRead f v => modifyField f v s
  | .setWrite w => writeConfig w s
  | .initWrite => writeDefault s
  | .luxGain => readGain s
  | .luxTime g => readTime g s
  | .luxCount g t => readCount g t s

/-- A command whose `op` is not defined (R55, R124): status `IllegalCommand`, no transaction, no state change. -/
def illegalCommand (s : State) : State := raise .illegalCommand s

/-- The state with a command word at the host port and no command in progress, so that the next step accepts it. -/
def presentCommand (c : Word32) (s : State) : State :=
  { s with inputs := .command c :: s.inputs, pending := none }

/-- The request a waiting block holds at its bus port: the address, and the word of a write (R34). -/
def Wait.request : Wait → Byte × Option Word
  | .rdcfg | .get _ | .setRead _ _ | .luxGain | .luxTime _ => (params.addrCfg, none)
  | .luxCount _ _ => (params.addrAls, none)
  | .setWrite w => (params.addrCfg, some w)
  | .initWrite => (params.addrCfg, some cfgDefault)

/-- `cmd_ready`: "1 only when no command is in progress" (R46). -/
def State.cmdReady (s : State) : Bool := s.pending.isNone

/-- `rsp_valid` (R46). -/
def State.rspValid (s : State) : Bool := s.rsp.isSome

/-- `rsp_status` (R46), meaningful while `rsp_valid` is 1. -/
def State.rspStatus (s : State) : Option (BitVec 3) := s.rsp.map Response.status

/-- `rsp_result` (R46), meaningful while `rsp_valid` is 1. -/
def State.rspResult (s : State) : Option Word32 := s.rsp.map Response.result

/-- `bus_req`: a transaction is requested (R34). -/
def State.busReq (s : State) : Bool := s.pending.isSome

/-- `bus_we` while a transaction is requested (R34). -/
def State.busWe (s : State) : Option Bool := s.pending.map (fun p => p.request.2.isSome)

/-- `bus_addr` while a transaction is requested (R34). -/
def State.busAddr (s : State) : Option Byte := s.pending.map (fun p => p.request.1)

/-- `bus_width` while a transaction is requested: always 2 bytes (R33, R34). -/
def State.busWidth (s : State) : Option (BitVec 2) := s.pending.map (fun _ => params.busBytes)

/-- `bus_wdata` while a write is requested (R34). -/
def State.busWdata (s : State) : Option Word := s.pending.bind (fun p => p.request.2)

end Sys2Proof.Machine
end

