-- ==== Sys2Proof/Machine/Step.lean ====
section
/-! DEFINITION. One step of the system: the next event happens (`30_encoding.md` R46, `10_state.md` R9, R11). -/

namespace Sys2Proof.Machine

/-- One step. A command runs to its response, or to a transaction the transport does not answer. -/
def step (s : State) : Host.Outcome State Fault Refusal :=
  match nextEvent s with
  | .world c s1 => .next (applyChange c s1)
  | .reset s1 => .next (resetBlock s1)
  | .resetInCommand => .refused .resetDuringCommand
  | .resume p s1 => .next (resumeAt p s1)
  | .idle => .next s
  | .accept c s1 =>
    match decode c with
    | .ok i => exec i s1
    | .error _ => .next (illegalCommand s1)

/-- The state whose next step accepts and runs the command word a table row's bits stand for. Log entry 3: commands are
presented from outside; the block fetches none. -/
def State.withFetchWord (s : State) (nbits w : Nat) : State := presentCommand (tableWord nbits w) s

end Sys2Proof.Machine
end

