-- ==== Sys2Proof/Safety.lean ====
section
/-! DEFINITION. What counts as a safe run, in the terms the statements use: which transactions the block may issue
(`20_memory.md` R30), which command may be in progress (`10_state.md` R15), the machine's invariant, the environment
that is the reference device (R40), and the status table (`60_exceptions.md` R125). -/

namespace Sys2Proof.Machine

/-- A transaction the block may issue (R30): a read of address 0 or 4, a write of address 0. -/
def BusTxn.legal : BusTxn → Bool
  | .read a _ => a == 0 || a == 4
  | .write a _ _ => a == 0

/-- The transaction succeeded. -/
def BusTxn.succeeded : BusTxn → Bool
  | .read _ got => got.isSome
  | .write _ _ ok => ok

/-- The register address of a transaction. -/
def BusTxn.address : BusTxn → Byte
  | .read a _ => a
  | .write a _ _ => a

/-- The word a write carries; none for a read. -/
def BusTxn.written : BusTxn → Option Word
  | .read _ _ => none
  | .write _ v _ => some v

/-- A command that may be in progress: any but INIT has passed the gate on `bound` (R15, R99), a setter's operand is in
range (R108), a gain index is one of four, and an integration-time index one of six. -/
def Wait.legal (bound : Bool) : Wait → Bool
  | .initWrite => true
  | .rdcfg | .get _ | .setWrite _ | .luxGain => bound
  | .setRead f v => bound && decide (v.toNat ≤ setMax f)
  | .luxTime g => bound && decide (g.toNat < 4)
  | .luxCount g t => bound && decide (g.toNat < 4) && t.all (fun t => decide (t.toNat < 6))

/-- A cell of memory that belongs to a register the device has (R29). -/
def cellMapped (c : Host.Cell) : Bool := mapped (BitVec.ofNat 8 (c.1 / 2)) && decide (c.1 < 512)

/-- The invariant every step keeps: the memory is canonical and lists only bytes of the device's registers, every
transaction so far is one the block may issue, a command in progress is one that may be, and while it is there is no
response. -/
abbrev State.Inv (s : State) : Prop :=
  s.mem.wf = true ∧ s.mem.all cellMapped = true ∧ s.trace.all BusTxn.legal = true ∧
    s.pending.all (Wait.legal s.bound) = true ∧ (s.pending ≠ none → s.rsp = none)

/-- The environment is the reference device with its bus up: nothing is scripted (R40). -/
abbrev State.ReferenceUp (s : State) : Prop := s.turns = [] ∧ s.line = .up

/-- The environment is the reference device with its bus down (R40). -/
abbrev State.ReferenceDown (s : State) : Prop := s.turns = [] ∧ s.line = .down

/-- The error kinds an operation can end with (R125's table, row by row). -/
def allowedErrors : Instr → List ErrorKind
  | .xsd _ | .xie _ | .xpers _ | .xit _ | .xgain _ | .cfgunpk _ | .cfgpack _ | .cfgdef => []
  | .isd _ _ | .iie _ _ | .ipers _ _ | .iit _ _ | .igain _ _ => [.invalidParameter]
  | .itenc _ | .itdec _ => []
  | .luxres _ _ | .luxmul _ _ _ => [.invalidParameter]
  | .rdcfg | .getsd | .getie | .getpers | .getit | .getgain => [.notInitialized, .busError]
  | .setsd _ | .setie _ | .setpers _ | .setit _ | .setgain _ => [.notInitialized, .busError, .invalidParameter]
  | .init _ => [.notInitialized, .busError]
  | .rdlux => [.notInitialized, .busError, .invalidDeviceState]

/-- The error kinds a command in progress can still end with: its gate and its operand are behind it (R126), so those of
its transactions, and RDLUX's guard after the third read (R118, R125). -/
def Wait.errors : Wait → List ErrorKind
  | .rdcfg | .get _ | .setRead _ _ | .setWrite _ | .initWrite => [.busError]
  | .luxGain | .luxTime _ | .luxCount _ _ => [.busError, .invalidDeviceState]

/-- How many transactions a command in progress has before it, the requested one included (R100, R101, R107, R116,
R118). -/
def Wait.transactionsLeft : Wait → Nat
  | .rdcfg | .get _ | .setWrite _ | .initWrite | .luxCount _ _ => 1
  | .setRead _ _ | .luxTime _ => 2
  | .luxGain => 3

/-- The state after the environment has had this many turns and nothing else has happened. -/
def turnsTaken : Nat → State → State
  | 0, s => s
  | n + 1, s => turnsTaken n (takeTurn s).2

/-- The operations of the codec, integration-time and lux families: they need no bus (R15, R66). -/
def isPure : Instr → Bool
  | .xsd _ | .xie _ | .xpers _ | .xit _ | .xgain _ | .cfgunpk _ | .cfgpack _ | .cfgdef => true
  | .isd _ _ | .iie _ _ | .ipers _ _ | .iit _ _ | .igain _ _ => true
  | .itenc _ | .itdec _ | .luxres _ _ | .luxmul _ _ _ => true
  | .rdcfg | .getsd | .getie | .getpers | .getit | .getgain => false
  | .setsd _ | .setie _ | .setpers _ | .setit _ | .setgain _ | .init _ | .rdlux => false

/-- The 30 defined opcodes (R53). -/
def definedOps : List Byte :=
  [0x01, 0x02, 0x03, 0x04, 0x05, 0x06, 0x11, 0x12, 0x13, 0x14, 0x15, 0x16, 0x17, 0x20, 0x21, 0x30, 0x31,
    0x40, 0x41, 0x42, 0x43, 0x44, 0x45, 0x51, 0x52, 0x53, 0x54, 0x55, 0x60, 0x70]

/-- The bits of a command word that its operation does not ignore: `op`, and the operand bits of R49 and R50. -/
def usedBits (op : Byte) : Word32 :=
  match op.toNat with
  | 0x01 | 0x02 | 0x03 | 0x04 | 0x05 | 0x06 => 0xFF00FFFF
  | 0x11 | 0x12 | 0x13 | 0x14 | 0x15 => 0xFFFFFFFF
  | 0x16 => 0xFF0003FF
  | 0x20 | 0x21 | 0x30 | 0x51 | 0x52 | 0x53 | 0x54 | 0x55 => 0xFFFF0000
  | 0x31 => 0xFFFFFFFF
  | 0x60 => 0xFF010000
  | _ => 0xFF000000

/-- The number whose `width` bits from bit `lo` up are `x` and whose other bits are those of `c`: R61 in arithmetic. -/
def replaceBits (lo width x c : Nat) : Nat :=
  c / 2 ^ (lo + width) * 2 ^ (lo + width) + x * 2 ^ lo + c % 2 ^ lo

/-- The physical pattern of a logical index, as R83 lists it. -/
def patternOf (l : Nat) : Nat :=
  if l = 0 then 0b1100 else if l = 1 then 0b1000 else if l = 2 then 0b0000 else if l = 3 then 0b0001
  else if l = 4 then 0b0010 else if l = 5 then 0b0011 else 0b1111

/-- The logical index of a physical pattern, as R84 lists it. -/
def indexOf (p : Nat) : Nat :=
  if p = 0b1100 then 0 else if p = 0b1000 then 1 else if p = 0b0000 then 2 else if p = 0b0001 then 3
  else if p = 0b0010 then 4 else if p = 0b0011 then 5 else 6

/-- The configuration word c with one field set as a setter with operand v sets it, in arithmetic (R107, R110 to R114:
the layout is R18's table). -/
def wordAfterSet (f : CfgField) (v c : Nat) : Nat :=
  match f with
  | .sd => replaceBits 0 1 v c
  | .ie => replaceBits 1 1 v c
  | .pers => replaceBits 4 2 v c
  | .it => replaceBits 6 4 (patternOf v) c
  | .gain => replaceBits 11 2 v c

/-- What RDCFG and the getters return for the word c they read, in arithmetic (R100, R102 to R106). -/
def readingOf : Instr → Nat → Option Nat
  | .rdcfg, c => some c
  | .getsd, c => some (c % 2)
  | .getie, c => some (c / 2 % 2)
  | .getpers, c => some (c / 16 % 4)
  | .getit, c => some (indexOf (c / 64 % 16))
  | .getgain, c => some (c / 2048 % 4)
  | _, _ => none

/-- The exponent step k(g, t) of R89: the stored constant is that of 0.0036 times 2^k. -/
def luxStep (g t : Nat) : Nat := [1, 0, 4, 3].getD g 0 + 5 - t

/-- How far the binary32 number x is from the exact value n, both in units of 2^-149. -/
def f32Distance (x : Word32) (n : Nat) : Nat := ((f32Magnitude x : Int) - (n : Int)).natAbs

/-- The setter of a field (R110 to R114). -/
def setterOf : CfgField → Byte → Instr
  | .sd => .setsd
  | .ie => .setie
  | .pers => .setpers
  | .it => .setit
  | .gain => .setgain

/-- The getter of a field (R102 to R106). -/
def getterOf : CfgField → Instr
  | .sd => .getsd
  | .ie => .getie
  | .pers => .getpers
  | .it => .getit
  | .gain => .getgain

end Sys2Proof.Machine
end

