-- ==== Sys2Proof/Certificates/Slice0/Obligations.lean ====
section
/-! DEFINITION. The statements for the provers: what the spec's rules say of this machine. Results are written in
arithmetic on numbers, not with the machine's own bit operations. -/

open Sys2Proof Sys2Proof.Machine

/-! ## Reset, the host port and the outside world -/

/-- R26, R133: after reset `bound = 0`, no command is in progress, `cmd_ready` is 1, no response is pending, and the
reset has issued no transaction. -/
def Obligations.ResetLeavesBlockUnboundAndIdle : Prop :=
  State.reset.bound = false ∧ State.reset.pending = none ∧ State.reset.cmdReady = true ∧
    State.reset.rspValid = false ∧ State.reset.trace = []

/-- R133, R27: a reset between commands clears `bound` and the response and changes nothing else, the device and the bus
included; a reset during a command is refused. -/
def Obligations.ResetBetweenCommandsClearsBound : Prop :=
  ∀ (s : State) (rest : List Input), s.inputs = .reset :: rest →
    (s.pending = none → step s = .next { s with inputs := rest, bound := false, rsp := none }) ∧
    (s.pending ≠ none → step s = .refused .resetDuringCommand)

/-- R39: an act of the outside world between two transactions changes the device register it names, or the bus, and
nothing of the block; every byte outside the register reads as before. -/
def Obligations.OutsideWorldChangesDeviceOnly : Prop :=
  (∀ (s : State) (a : Byte) (v : Word) (rest : List Input),
    s.inputs = .world (.reg a v) :: rest → a ∈ ([0, 1, 2, 4, 5, 6] : List Byte) →
      ∃ m, step s = .next { s with inputs := rest, mem := m } ∧ m.reg a = v ∧
        ∀ k, k ≠ lowKey a → k ≠ lowKey a + 1 → m.byte k = s.mem.byte k) ∧
  (∀ (s : State) (l : BusLine) (rest : List Input), s.inputs = .world (.line l) :: rest →
      step s = .next { s with inputs := rest, line := l })

/-- R11, R46, R54: a command word presented while no command is in progress is accepted, and the step is the meaning of
the instruction it decodes to, at the state from which the word and the previous response are gone. -/
def Obligations.StepRunsDecodedCommand : Prop :=
  ∀ (s : State) (c : Word32) (rest : List Input) (i : Instr),
    s.pending = none → s.inputs = .command c :: rest → decode c = .ok i →
      step s = exec i { s with inputs := rest, rsp := none }

/-- R55, R124: a command whose `op` is none of the 30 answers `IllegalCommand`, whatever `bound` is, issues no
transaction and changes no state. -/
def Obligations.UndefinedOpAnswersIllegalCommand : Prop :=
  ∀ (s : State) (c : Word32) (rest : List Input),
    s.pending = none → s.inputs = .command c :: rest → c.extractLsb' 24 8 ∉ definedOps →
      step s = .next { s with inputs := rest, rsp := some (.err .illegalCommand) }

/-- R46, R11: every accepted command is taken from the host once, and then either it has its one response and none is in
progress, or it is in progress and there is no response. -/
def Obligations.AcceptedCommandAnswersOrWaits : Prop :=
  ∀ (s : State) (c : Word32) (rest : List Input), s.pending = none → s.inputs = .command c :: rest →
    ∃ t, step s = .next t ∧ t.inputs = rest ∧
      ((t.rsp ≠ none ∧ t.pending = none) ∨ (t.rsp = none ∧ t.pending ≠ none))

/-- R11, R135, R41 item 3: while a command is in progress no other is accepted, whatever the transport does. -/
def Obligations.BusyBlockAcceptsNoCommand : Prop :=
  ∀ (s : State) (p : Wait) (c : Word32) (rest : List Input),
    s.pending = some p → s.rsp = none → s.inputs = .command c :: rest →
      ∃ t, step s = .next t ∧ t.inputs = s.inputs ∧
        ((t.rsp ≠ none ∧ t.pending = none) ∨ (t.rsp = none ∧ t.pending ≠ none))

/-- R143: with a transport that does not answer, a waiting block makes no step of its own: it is stuck. -/
def Obligations.UnansweredTransactionStaysStuck : Prop :=
  ∀ (s : State) (p : Wait), s.pending = some p → s.line = .hung → s.turns = [] →
    (s.inputs = [] ∨ ∃ c rest, s.inputs = .command c :: rest) → step s = .next s

/-- R143, R41: when the transport has its turn again, whether or not the host holds a further command at the port, a
command that waits for its first transaction does what it would have done had it been issued at that state (INIT whatever
`bound` is); a setter that waits for its write ends as the write is answered, or waits on; and RDLUX goes on from its
second or third read to what LUXMUL answers (its other ends are in WaitingRdluxFailsOrWaitsAtItsLaterReads). -/
def Obligations.WaitingCommandGoesOnFromItsTransaction : Prop :=
  ∀ (s : State) (p : Wait), s.pending = some p → (s.inputs = [] ∨ ∃ c rest, s.inputs = .command c :: rest) →
    (p = .rdcfg → s.bound = true → step s = exec .rdcfg { s with pending := none }) ∧
    (∀ f, p = .get f → s.bound = true → step s = exec (getterOf f) { s with pending := none }) ∧
    (∀ f v, p = .setRead f v → s.bound = true → v.toNat ≤ setMax f →
      step s = exec (setterOf f v) { s with pending := none }) ∧
    (∀ q : Byte, p = .initWrite → q.toNat % 2 = 1 → step s = exec (.init q) { s with pending := none }) ∧
    (p = .luxGain → s.bound = true → step s = exec .rdlux { s with pending := none }) ∧
    (∀ w u, p = .setWrite w →
      (memWrite 0 w { s with pending := none } = (.ok (), u) → step s = .next { u with rsp := some (.ok 0) }) ∧
      (memWrite 0 w { s with pending := none } = (.fail, u) →
        step s = .next { u with rsp := some (.err .busError) }) ∧
      (memWrite 0 w { s with pending := none } = (.silent, u) →
        step s = .next { u with pending := some (.setWrite w) })) ∧
    (∀ g w n u u', p = .luxTime g → g.toNat < 4 → memRead 0 { s with pending := none } = (.ok w, u) →
      memRead 4 u = (.ok n, u') → indexOf (w.toNat / 64 % 16) < 6 →
      step s = exec (.luxmul g (BitVec.ofNat 4 (indexOf (w.toNat / 64 % 16))) n) u') ∧
    (∀ g l n u, p = .luxCount g (some l) → g.toNat < 4 → l.toNat < 6 →
      memRead 4 { s with pending := none } = (.ok n, u) → step s = exec (.luxmul g (l.setWidth 4) n) u)

/-- R48, R119: the six status codes, and result 0 on every failing status; the codes 6 and 7 are never produced. -/
def Obligations.StatusCodesAreSixAndFailuresCarryZero : Prop :=
  (∀ v, (Response.ok v).status = 0 ∧ (Response.ok v).result = v) ∧
  (Response.err .notInitialized).status = 1 ∧ (Response.err .busError).status = 2 ∧
  (Response.err .invalidParameter).status = 3 ∧ (Response.err .invalidDeviceState).status = 4 ∧
  (Response.err .illegalCommand).status = 5 ∧
  (∀ r : Response, r.status.toNat ≤ 5 ∧ (r.status ≠ 0 → r.result = 0))

/-- R34, R33, R30: while the block requests a transaction, `cmd_ready` is 0, the width is 2 bytes, the address is 0 or 4,
and a write goes to address 0; otherwise no bus signal is meaningful. The request is the one the command in progress
waits for: RDLUX's third read is of address 4, a setter's write carries its word to address 0, INIT's carries 0x0000
there, and every other is a read of address 0. R41: the transaction a waiting block makes first is the requested one. -/
def Obligations.BusPortSignalsOfAWaitingBlock : Prop :=
  ∀ s : State, (s.busReq = true ↔ s.pending ≠ none) ∧ (s.cmdReady = true ↔ s.pending = none) ∧
    (s.busReq = true → s.busWidth = some 2 ∧ (s.busAddr = some 0 ∨ s.busAddr = some 4) ∧
      (s.busWe = some true → s.busAddr = some 0 ∧ s.busWdata ≠ none) ∧
      (s.busWe = some false → s.busWdata = none)) ∧
    (s.busReq = false → s.busWidth = none ∧ s.busAddr = none ∧ s.busWe = none ∧ s.busWdata = none) ∧
    (∀ g t, s.pending = some (.luxCount g t) → s.busAddr = some 4 ∧ s.busWe = some false) ∧
    (∀ w, s.pending = some (.setWrite w) → s.busAddr = some 0 ∧ s.busWe = some true ∧ s.busWdata = some w) ∧
    (s.pending = some .initWrite → s.busAddr = some 0 ∧ s.busWe = some true ∧ s.busWdata = some 0) ∧
    (∀ p f v g, s.pending = some p → p ∈ [.rdcfg, .get f, .setRead f v, .luxGain, .luxTime g] →
      s.busAddr = some 0 ∧ s.busWe = some false) ∧
    (∀ t, s.pending ≠ none → step s = .next t → ∃ new, t.trace = s.trace ++ new ∧
      ∀ x, new.head? = some x →
        s.busAddr = some x.address ∧ s.busWe = some x.written.isSome ∧ s.busWdata = x.written)

/-! ## Encoding -/

/-- R57, R47 and `95_test_vectors.md` sections 2 to 8: command words written out by the spec decode to the operations it
names, ignored bits and all. -/
def Obligations.SpecWordsDecodeAsNamed : Prop :=
  decode 0x010018F3 = .ok (.xsd 0x18F3) ∧ decode 0x0400A5A5 = .ok (.xit 0xA5A5) ∧
  decode 0x1303E40C = .ok (.ipers 3 0xE40C) ∧ decode 0x141C0000 = .ok (.iit 28 0) ∧
  decode 0x16FFFF3F = .ok (.cfgpack 0x33F) ∧ decode 0x17FFFFFF = .ok .cfgdef ∧
  decode 0x20020001 = .ok (.itenc 2) ∧ decode 0x211C0000 = .ok (.itdec 0x1C) ∧
  decode 0x30250000 = .ok (.luxres 2 5) ∧ decode 0x310203E8 = .ok (.luxmul 0 2 1000) ∧
  decode 0x40ABCDEF = .ok .rdcfg ∧ decode 0x41FFFFFF = .ok .getsd ∧
  decode 0x5401FFFF = .ok (.setit 1) ∧ decode 0x60FE0000 = .ok (.init 0) ∧ decode 0x60FFFFFF = .ok (.init 1) ∧
  decode 0x70FFFFFF = .ok .rdlux ∧ decode 0x00000000 = .error (.illegalOpcode 0) ∧
  decode 0x46000000 = .error (.illegalOpcode 0x46)

/-- R53, R57: decoding the command word of any well-formed instruction gives that instruction back. -/
def Obligations.DecodeEncodeRoundTrip : Prop :=
  ∀ i : Instr, i.wellFormed = true → decode (encode i) = .ok i

/-- R54, R52: what the decoder answers is well formed, and encoding it gives the command word back with its ignored
bits 0. -/
def Obligations.EncodeDecodeClearsIgnoredBits : Prop :=
  ∀ (c : Word32) (i : Instr), decode c = .ok i →
    i.wellFormed = true ∧ encode i = c &&& usedBits (c.extractLsb' 24 8)

/-- R54, R55: decoding is total, and refuses exactly the command words whose `op` is none of the 30; those `op` values
are 226. -/
def Obligations.DecodeRefusesExactlyUndefinedOps : Prop :=
  (∀ c : Word32, (∃ i, decode c = .ok i) ↔ c.extractLsb' 24 8 ∈ definedOps) ∧
  (∀ c : Word32, decode c = .error (.illegalOpcode (c.extractLsb' 24 8)) ↔ c.extractLsb' 24 8 ∉ definedOps) ∧
  definedOps.Nodup ∧ definedOps.length + 226 = 256

/-- R52, R54: two command words that differ only in ignored bits are the same operation. -/
def Obligations.IgnoredBitsDoNotChangeTheOperation : Prop :=
  ∀ c c' : Word32, c.extractLsb' 24 8 = c'.extractLsb' 24 8 →
    c &&& usedBits (c.extractLsb' 24 8) = c' &&& usedBits (c.extractLsb' 24 8) → decode c = decode c'

/-! ## The codec family -/

/-- R67 to R71: the X-operations return their field of the word, whatever its other bits are, with status `OK`, and
change nothing. -/
def Obligations.ExtractOpsReturnTheField : Prop :=
  ∀ (w : Word) (s : State),
    exec (.xsd w) s = .next { s with rsp := some (.ok (BitVec.ofNat 32 (w.toNat % 2))) } ∧
    exec (.xie w) s = .next { s with rsp := some (.ok (BitVec.ofNat 32 (w.toNat / 2 % 2))) } ∧
    exec (.xpers w) s = .next { s with rsp := some (.ok (BitVec.ofNat 32 (w.toNat / 16 % 4))) } ∧
    exec (.xit w) s = .next { s with rsp := some (.ok (BitVec.ofNat 32 (w.toNat / 64 % 16))) } ∧
    exec (.xgain w) s = .next { s with rsp := some (.ok (BitVec.ofNat 32 (w.toNat / 2048 % 4))) }

/-- R73 to R77, R61: an I-operation whose operand fits the field returns the word with that field replaced and every
other bit, reserved bits included, as it was. -/
def Obligations.InsertOpsReplaceTheField : Prop :=
  ∀ (v : Byte) (w : Word) (s : State),
    (v.toNat < 2 → exec (.isd v w) s = .next { s with rsp := some (.ok (BitVec.ofNat 32 (replaceBits 0 1 v.toNat w.toNat))) }) ∧
    (v.toNat < 2 → exec (.iie v w) s = .next { s with rsp := some (.ok (BitVec.ofNat 32 (replaceBits 1 1 v.toNat w.toNat))) }) ∧
    (v.toNat < 4 → exec (.ipers v w) s = .next { s with rsp := some (.ok (BitVec.ofNat 32 (replaceBits 4 2 v.toNat w.toNat))) }) ∧
    (v.toNat < 16 → exec (.iit v w) s = .next { s with rsp := some (.ok (BitVec.ofNat 32 (replaceBits 6 4 v.toNat w.toNat))) }) ∧
    (v.toNat < 4 → exec (.igain v w) s = .next { s with rsp := some (.ok (BitVec.ofNat 32 (replaceBits 11 2 v.toNat w.toNat))) })

/-- R62, R73 to R77: an I-operation whose operand does not fit the field raises `InvalidParameter` and changes
nothing. -/
def Obligations.InsertOpsRejectWideOperands : Prop :=
  ∀ (v : Byte) (w : Word) (s : State),
    (2 ≤ v.toNat → exec (.isd v w) s = .next { s with rsp := some (.err .invalidParameter) } ∧
      exec (.iie v w) s = .next { s with rsp := some (.err .invalidParameter) }) ∧
    (4 ≤ v.toNat → exec (.ipers v w) s = .next { s with rsp := some (.err .invalidParameter) } ∧
      exec (.igain v w) s = .next { s with rsp := some (.err .invalidParameter) }) ∧
    (16 ≤ v.toNat → exec (.iit v w) s = .next { s with rsp := some (.err .invalidParameter) })

/-- R72, R78, R79, R51: CFGUNPK returns the compact field record of the word, dropping the reserved bits; CFGPACK builds
the word of a record, every reserved bit 0, and ignores `w[15:10]`; CFGDEF returns 0x0000, the word packed from SD 0, IE
0, PERS 0, `it_enc(2)` and GAIN 0. They change nothing. -/
def Obligations.WholeWordOperationsUnpackAndPack : Prop :=
  (0 : Word) = pack 0 0 0 (BitVec.ofNat 4 (patternOf 2)) 0 ∧
  ∀ (w : Word) (s : State),
    exec (.cfgunpk w) s = .next { s with rsp := some (.ok (BitVec.ofNat 32
      (w.toNat % 2 + 2 * (w.toNat / 2 % 2) + 4 * (w.toNat / 16 % 4) + 16 * (w.toNat / 64 % 16)
        + 256 * (w.toNat / 2048 % 4)))) } ∧
    exec (.cfgpack w) s = .next { s with rsp := some (.ok (BitVec.ofNat 32
      (w.toNat % 2 + 2 * (w.toNat / 2 % 2) + 16 * (w.toNat / 4 % 4) + 64 * (w.toNat / 16 % 16)
        + 2048 * (w.toNat / 256 % 4)))) } ∧
    exec .cfgdef s = .next { s with rsp := some (.ok 0) }

/-- R64: the eight laws of extract, insert, pack and unpack. -/
def Obligations.PackUnpackLaws : Prop :=
  (∀ f (w x : Word), x.toNat < 2 ^ params.width f → fieldExtract f (fieldInsert f w x) = x) ∧
  (∀ f g (w x : Word), g ≠ f → x.toNat < 2 ^ params.width f → fieldExtract g (fieldInsert f w x) = fieldExtract g w) ∧
  (∀ f (w x : Word), x.toNat < 2 ^ params.width f → fieldInsert f w x &&& 0xE40C = w &&& 0xE40C) ∧
  (∀ f (w : Word), fieldInsert f w (fieldExtract f w) = w) ∧
  (∀ f (w x x' : Word), x.toNat < 2 ^ params.width f → x'.toNat < 2 ^ params.width f →
    fieldInsert f (fieldInsert f w x) x' = fieldInsert f w x') ∧
  (∀ f g (w x y : Word), g ≠ f → x.toNat < 2 ^ params.width f → y.toNat < 2 ^ params.width g →
    fieldInsert f (fieldInsert g w y) x = fieldInsert g (fieldInsert f w x) y) ∧
  (∀ sd ie pers it gain, fieldExtract .sd (pack sd ie pers it gain) = sd.setWidth 16 ∧
    fieldExtract .ie (pack sd ie pers it gain) = ie.setWidth 16 ∧
    fieldExtract .pers (pack sd ie pers it gain) = pers.setWidth 16 ∧
    fieldExtract .it (pack sd ie pers it gain) = it.setWidth 16 ∧
    fieldExtract .gain (pack sd ie pers it gain) = gain.setWidth 16) ∧
  (∀ w : Word, pack ((fieldExtract .sd w).setWidth 1) ((fieldExtract .ie w).setWidth 1) ((fieldExtract .pers w).setWidth 2)
    ((fieldExtract .it w).setWidth 4) ((fieldExtract .gain w).setWidth 2) = w &&& 0x1BF3) ∧
  (∀ f g, g ≠ f → fieldMask f &&& fieldMask g = 0) ∧ (∀ f, fieldMask f &&& 0xE40C = 0) ∧
  fieldMask .sd ||| fieldMask .ie ||| fieldMask .pers ||| fieldMask .it ||| fieldMask .gain ||| 0xE40C = 0xFFFF

/-- R66: an operation of the codec, integration-time and lux families gives one response, the same at every state, which
is none of the errors that need a bus; it changes no state and issues no transaction. -/
def Obligations.PureOperationsDependOnOperandsAlone : Prop :=
  ∀ i : Instr, isPure i = true →
    ∃ r, r ≠ .err .notInitialized ∧ r ≠ .err .busError ∧ r ≠ .err .invalidDeviceState ∧
      ∀ s, exec i s = .next { s with rsp := some r }

/-! ## The integration-time family -/

/-- R83, R84, R86, R87: ITENC returns the pattern of a logical index and ITDEC the logical index of a pattern, all 8 bits
compared; outside the table they return their sentinel, 0b1111 and 6, with status `OK`; they change nothing. -/
def Obligations.TranslationsFollowTheTable : Prop :=
  ∀ (v : Byte) (s : State),
    exec (.itenc v) s = .next { s with rsp := some (.ok (BitVec.ofNat 32
      (if v = 0 then 0b1100 else if v = 1 then 0b1000 else if v = 2 then 0b0000 else if v = 3 then 0b0001
        else if v = 4 then 0b0010 else if v = 5 then 0b0011 else 0b1111))) } ∧
    exec (.itdec v) s = .next { s with rsp := some (.ok (BitVec.ofNat 32
      (if v = 0b1100 then 0 else if v = 0b1000 then 1 else if v = 0b0000 then 2 else if v = 0b0001 then 3
        else if v = 0b0010 then 4 else if v = 0b0011 then 5 else 6))) }

/-- R85: the six laws of the two translations. -/
def Obligations.TranslationsAreInverseOffTheSentinels : Prop :=
  (∀ l : Byte, l.toNat ≤ 5 → itDecPort ((itEncPort l).setWidth 8) = l.setWidth 3) ∧
  (∀ p : Byte, p ∈ ([12, 8, 0, 1, 2, 3] : List Byte) → (itEncPort ((itDecPort p).setWidth 8)).setWidth 8 = p) ∧
  (∀ p : Byte, p.toNat < 16 → p ∉ ([12, 8, 0, 1, 2, 3] : List Byte) → itDecPort p = 6) ∧
  (itEncPort 6 = 15 ∧ itDecPort 15 = 6) ∧
  (itEncPort 1 < itEncPort 0 ∧ itEncPort 2 < itEncPort 1 ∧ itEncPort 2 < itEncPort 3 ∧ itEncPort 3 < itEncPort 4 ∧
    itEncPort 4 < itEncPort 5) ∧
  (∀ l : Byte, itEncPort l = 15 ↔ 5 < l.toNat) ∧
  (∀ p : Byte, itDecPort p = 6 ↔ p ∉ ([12, 8, 0, 1, 2, 3] : List Byte))

/-! ## The lux family -/

/-- R91, R97: LUXRES returns the stored constant of its row and column, `0x3B6BEDFA + (k(g,t) << 23)`. -/
def Obligations.LuxresReturnsTheStoredConstant : Prop :=
  ∀ (g t : BitVec 4) (s : State), g.toNat < 4 → t.toNat < 6 →
    exec (.luxres g t) s =
      .next { s with rsp := some (.ok (BitVec.ofNat 32 (0x3B6BEDFA + luxStep g.toNat t.toNat * 2 ^ 23))) }

/-- R92, R97, R98: an index outside the table is rejected with `InvalidParameter`, never looked up. -/
def Obligations.LuxOpsRejectIndicesOutsideTheTable : Prop :=
  ∀ (g t : BitVec 4) (raw : Word) (s : State), 4 ≤ g.toNat ∨ 6 ≤ t.toNat →
    exec (.luxres g t) s = .next { s with rsp := some (.err .invalidParameter) } ∧
    exec (.luxmul g t raw) s = .next { s with rsp := some (.err .invalidParameter) }

/-- R91, R88: each stored constant is the binary32 number nearest to the printed decimal (in units of 0.0001), and no
entry is a tie: every other finite binary32 number of another magnitude is farther from it. -/
def Obligations.StoredConstantsAreNearestToDecimals : Prop :=
  ∀ (g t : BitVec 4) (c x : Word32) (d : Nat), luxRes g t = some c →
    (luxDecimals[g.toNat]?).bind (fun row => row[t.toNat]?) = some d → f32Finite x = true →
    f32Magnitude x ≠ f32Magnitude c →
      ((f32Magnitude c * 10000 : Int) - (d * 2 ^ 149 : Nat)).natAbs <
        ((f32Magnitude x * 10000 : Int) - (d * 2 ^ 149 : Nat)).natAbs

/-- R89: the doubling property is exact, in the printed decimals and in the stored constants: resolution times gain
times integration time is one number over the whole table. -/
def Obligations.ResolutionTimesGainTimesTimeIsConstant : Prop :=
  (∀ (g t : BitVec 4) (d : Nat), (luxDecimals[g.toNat]?).bind (fun row => row[t.toNat]?) = some d →
    d * gainEighths g.toNat * itMillis t.toNat = 36 * gainEighths 1 * itMillis 5) ∧
  (∀ (g t : BitVec 4) (c : Word32), luxRes g t = some c →
    f32Magnitude c * gainEighths g.toNat * itMillis t.toNat = f32Magnitude 0x3B6BEDFA * gainEighths 1 * itMillis 5)

/-- R93: the conversion of a count is exact: the pattern is positive, finite, and its magnitude is the count. -/
def Obligations.CountConvertsExactly : Prop :=
  ∀ n : Word, f32Sign (u16ToF32 n) = 0 ∧ f32Finite (u16ToF32 n) = true ∧
    f32Magnitude (u16ToF32 n) = n.toNat * 2 ^ 149

/-- R94: the product of two finite numbers is the finite binary32 number nearest to their exact product, with an even
fraction when another number is as near; its sign is the product's; the order of the operands does not matter. R95 says
that the block's own products are zero or normal: that the sign of a zero or of a product too large for the format is the
product's, and that a subnormal result is rounded like the others, is the model's choice (log entry 14). The product is
finite whenever it lies below the middle of the largest finite number, `(2^24 - 1) * 2^104`, and `2^128`. -/
def Obligations.F32MulRoundsToNearestEven : Prop :=
  ∀ a b : Word32, f32Finite a = true → f32Finite b = true →
    f32Sign (f32Mul a b) = f32Sign a ^^^ f32Sign b ∧ f32Mul a b = f32Mul b a ∧
    (f32Magnitude a * f32Magnitude b < (2 ^ 25 - 1) * 2 ^ 252 * 2 ^ 149 → f32Finite (f32Mul a b) = true) ∧
    (f32Finite (f32Mul a b) = true → ∀ x : Word32, f32Finite x = true →
      let exact := f32Magnitude a * f32Magnitude b
      let far (y : Word32) : Nat := ((f32Magnitude y * 2 ^ 149 : Int) - (exact : Int)).natAbs
      far (f32Mul a b) ≤ far x ∧
        (far (f32Mul a b) = far x → f32Magnitude x ≠ f32Magnitude (f32Mul a b) → f32Fraction (f32Mul a b) % 2 = 0))

/-- R98, R93, R94: LUXMUL at any indices in the table answers the finite, non-negative binary32 number nearest to the
exact product of the count and the stored constant, ties to even, and changes nothing else. -/
def Obligations.LuxmulIsTheCorrectlyRoundedProduct : Prop :=
  ∀ (g t : BitVec 4) (raw : Word) (s : State), g.toNat < 4 → t.toNat < 6 →
    ∃ c r, luxRes g t = some c ∧ exec (.luxmul g t raw) s = .next { s with rsp := some (.ok r) } ∧
      f32Finite r = true ∧ f32Sign r = 0 ∧
      ∀ x : Word32, f32Finite x = true →
        f32Distance r (raw.toNat * f32Magnitude c) ≤ f32Distance x (raw.toNat * f32Magnitude c) ∧
        (f32Distance r (raw.toNat * f32Magnitude c) = f32Distance x (raw.toNat * f32Magnitude c) →
          f32Magnitude x ≠ f32Magnitude r → f32Fraction r % 2 = 0)

/-- R95: LUXMUL's result is +0.0 for count 0 and otherwise a positive number between 0x3B6BEDFA and 0x47EBED0E; count 1
gives the constant itself. -/
def Obligations.LuxmulResultRange : Prop :=
  ∀ (g t : BitVec 4) (raw : Word) (s : State), g.toNat < 4 → t.toNat < 6 →
    ∃ r, exec (.luxmul g t raw) s = .next { s with rsp := some (.ok r) } ∧
      (raw = 0 → r = 0) ∧ (raw ≠ 0 → 0x3B6BEDFA ≤ r.toNat ∧ r.toNat ≤ 0x47EBED0E) ∧
      (raw = 1 → luxRes g t = some r)

/-- R96: the result differs from the exact illuminance `raw * 9 * 2^k / 2500` lux by a relative error below 2^-22. -/
def Obligations.LuxmulRelativeErrorBelowTwoToMinus22 : Prop :=
  ∀ (g t : BitVec 4) (raw : Word) (s : State), g.toNat < 4 → t.toNat < 6 → raw ≠ 0 →
    ∃ r, exec (.luxmul g t raw) s = .next { s with rsp := some (.ok r) } ∧
      ((f32Magnitude r * 2500 : Int) - (raw.toNat * 9 * 2 ^ luxStep g.toNat t.toNat * 2 ^ 149 : Nat)).natAbs * 2 ^ 22 <
        raw.toNat * 9 * 2 ^ luxStep g.toNat t.toNat * 2 ^ 149

/-! ## The bus -/

/-- R31, R143: a read is one transaction with one of two answers, recorded as answered, or it has no answer yet (log
entry 7); the block, its host port and what the environment will do later are untouched, and the device and the bus are
as the environment left them. That the read itself changes nothing on the device is R37's for addresses 0 and 4; for
every other address, 6 included, whose read clears flags on the physical device (R29, R37), it is the model's choice
after R40 (log entry 10), and the block reads none of them. -/
def Obligations.MemReadIsOneTransaction : Prop :=
  ∀ (a : Byte) (s t : State) (x : Answer Word), memRead a s = (x, t) →
    t.bound = s.bound ∧ t.pending = s.pending ∧ t.rsp = s.rsp ∧ t.inputs = s.inputs ∧ t.turns = s.turns.tail ∧
    t.mem = (takeTurn s).2.mem ∧ t.line = (takeTurn s).2.line ∧
    (∀ v, x = .ok v → t.trace = s.trace ++ [.read a (some v)]) ∧
    (x = .fail → t.trace = s.trace ++ [.read a none]) ∧ (x = .silent → t.trace = s.trace)

/-- R32: a write is one transaction; on `ok` the register has received the value and every other byte of the device is
as the environment left it; on `fail` the write changed nothing. That a write which is not answered has changed nothing
either, beyond what the environment's turn changes, is the model's choice (log entries 6 and 7). -/
def Obligations.MemWriteChangesOneRegisterOrNothing : Prop :=
  ∀ (a : Byte) (v : Word) (s t : State) (x : Answer Unit), memWrite a v s = (x, t) →
    t.bound = s.bound ∧ t.pending = s.pending ∧ t.rsp = s.rsp ∧ t.inputs = s.inputs ∧ t.turns = s.turns.tail ∧
    t.line = (takeTurn s).2.line ∧
    (x = .ok () → t.mem.reg a = v ∧ t.trace = s.trace ++ [.write a v true] ∧
      ∀ k, k ≠ lowKey a → k ≠ lowKey a + 1 → t.mem.byte k = (takeTurn s).2.mem.byte k) ∧
    (x = .fail → t.mem = (takeTurn s).2.mem ∧ t.trace = s.trace ++ [.write a v false]) ∧
    (x = .silent → t.mem = (takeTurn s).2.mem ∧ t.trace = s.trace)

/-- R38, R31, R39, R143: of the model's oracle, which is a script of turns (log entry 6): it can answer a read with any 16
bits, with `fail`, or not yet (R143, log entry 7), and a register changed from outside just before the read is read as
changed. -/
def Obligations.EnvironmentMayAnswerAnything : Prop :=
  ∀ (a : Byte) (s : State) (cs : List Change) (rest : List Turn),
    (∀ v, s.turns = ⟨cs, .deliver v⟩ :: rest → (memRead a s).1 = .ok v) ∧
    (s.turns = ⟨cs, .fail⟩ :: rest → (memRead a s).1 = .fail) ∧
    (s.turns = ⟨cs, .silent⟩ :: rest → (memRead a s).1 = .silent) ∧
    (∀ v, s.turns = ⟨cs ++ [.reg a v], .asLine⟩ :: rest → (takeTurn s).2.line = .up →
      a ∈ ([0, 1, 2, 4, 5, 6] : List Byte) → (memRead a s).1 = .ok v)

/-- R40: the reference device returns what is stored and stores what is written, a read changing nothing, register 6
included; it fails everything while its bus is down, and answers `fail` at every address that names no register. -/
def Obligations.ReferenceDeviceReadsBackWhatWasWritten : Prop :=
  ∀ (a : Byte) (v : Word) (s : State),
    (s.ReferenceUp → a ∈ ([0, 1, 2, 4, 5, 6] : List Byte) →
      (memRead a s).1 = .ok (s.mem.reg a) ∧ (memRead a s).2.mem = s.mem ∧
      ∃ t, memWrite a v s = (.ok (), t) ∧ t.ReferenceUp ∧ (memRead a t).1 = .ok v ∧
        ∀ b ∈ ([0, 1, 2, 4, 5, 6] : List Byte), b ≠ a → (memRead b t).1 = (memRead b s).1) ∧
    (s.ReferenceUp → a ∉ ([0, 1, 2, 4, 5, 6] : List Byte) →
      (memRead a s).1 = .fail ∧ (memRead a s).2.mem = s.mem ∧ (memWrite a v s).1 = .fail ∧
        (memWrite a v s).2.mem = s.mem) ∧
    (s.ReferenceDown → (memRead a s).1 = .fail ∧ (memRead a s).2.mem = s.mem ∧ (memWrite a v s).1 = .fail ∧
      (memWrite a v s).2.mem = s.mem)

/-- R35: the first wire byte of a register is its low byte. The keys under which the model holds the two bytes are its
own (log entry 4). -/
def Obligations.RegistersAreLittleEndianOnTheWire : Prop :=
  ∀ (m : Memory) (a : Byte) (v : Word),
    (m.reg a).toNat = (m.byte (2 * a.toNat)).toNat + 256 * (m.byte (2 * a.toNat + 1)).toNat ∧
    ((m.setReg a v).byte (2 * a.toNat)).toNat = v.toNat % 256 ∧
    ((m.setReg a v).byte (2 * a.toNat + 1)).toNat = v.toNat / 256

/-! ## The configuration access family -/

/-- R99 item 1, R120: with `bound = 0` every bus-using operation but INIT answers `NotInitialized`, examines no operand,
issues no transaction and changes nothing. -/
def Obligations.UnboundBlockAnswersNotInitialized : Prop :=
  ∀ (i : Instr) (s : State), isPure i = false → (∀ p, i ≠ .init p) → s.bound = false →
    exec i s = .next { s with rsp := some (.err .notInitialized) }

/-- R100, R102 to R106, R101: under the reference device, RDCFG and the five getters issue one read of address 0 and
return the word, the field, or the logical index of what it holds; nothing else changes. -/
def Obligations.GettersReturnWhatTheDeviceHolds : Prop :=
  ∀ (i : Instr) (s : State) (n : Nat), readingOf i (s.mem.reg 0).toNat = some n → s.bound = true → s.ReferenceUp →
    exec i s = .next { s with trace := s.trace ++ [.read 0 (some (s.mem.reg 0))], rsp := some (.ok (BitVec.ofNat 32 n)) }

/-- R99 items 2, 3, 6, R100, R101, R143: whatever the transport answers, RDCFG and the getters use a word read with
success as it is, end with `BusError` on a failure, and while there is no answer wait at their own read of address 0
(log entry 7); they do nothing else. -/
def Obligations.GettersUseTheWordAsDelivered : Prop :=
  ∀ (i : Instr) (s u : State) (w : Word) (n : Nat), readingOf i w.toNat = some n → s.bound = true →
    (memRead 0 s = (.ok w, u) → exec i s = .next { u with rsp := some (.ok (BitVec.ofNat 32 n)) }) ∧
    (memRead 0 s = (.fail, u) → exec i s = .next { u with rsp := some (.err .busError) }) ∧
    (memRead 0 s = (.silent, u) →
      (i = .rdcfg → exec i s = .next { u with pending := some .rdcfg }) ∧
      (∀ f, i = getterOf f → exec i s = .next { u with pending := some (.get f) }))

/-- R107, R110 to R114: under the reference device a setter with a legal operand reads address 0, writes back the word
with its one field replaced, and answers `OK` with result 0; every byte of the device outside register 0 is unchanged,
and so is everything else. -/
def Obligations.SettersReplaceOneFieldOnTheDevice : Prop :=
  ∀ (f : CfgField) (v : Byte) (s : State), v.toNat ≤ setMax f → s.bound = true → s.ReferenceUp →
    ∃ (m : Memory) (w : Word), exec (setterOf f v) s = .next { s with
        mem := m, trace := s.trace ++ [.read 0 (some (s.mem.reg 0)), .write 0 w true], rsp := some (.ok 0) } ∧
      w.toNat = wordAfterSet f v.toNat (s.mem.reg 0).toNat ∧ m.reg 0 = w ∧
      ∀ k, k ≠ lowKey params.addrCfg → k ≠ lowKey params.addrCfg + 1 → m.byte k = s.mem.byte k

/-- R108, R113: a setter with an operand out of range answers `InvalidParameter` before any transaction, whatever the
bus would do; nothing changes. -/
def Obligations.SettersRejectBeforeTouchingTheBus : Prop :=
  ∀ (v : Byte) (s : State), s.bound = true →
    (1 < v.toNat → exec (.setsd v) s = .next { s with rsp := some (.err .invalidParameter) } ∧
      exec (.setie v) s = .next { s with rsp := some (.err .invalidParameter) }) ∧
    (3 < v.toNat → exec (.setpers v) s = .next { s with rsp := some (.err .invalidParameter) } ∧
      exec (.setgain v) s = .next { s with rsp := some (.err .invalidParameter) }) ∧
    (5 < v.toNat → exec (.setit v) s = .next { s with rsp := some (.err .invalidParameter) })

/-- R109, R107, R25, R143: the outcomes of a bound setter with a legal operand, whatever the environment does: it waits
for its read (log entry 7); the read failed; or the read returned r and the write carries r with the one field replaced, and it waits, failed,
or succeeded. In each the device, and all else, is what the two transactions left (MemReadIsOneTransaction,
MemWriteChangesOneRegisterOrNothing): with a failure or a wait the block has changed nothing on it, and a success has
stored the one word in register 0. -/
def Obligations.SetterOutcomes : Prop :=
  ∀ (f : CfgField) (v : Byte) (s : State), v.toNat ≤ setMax f → s.bound = true →
    (∃ t, exec (setterOf f v) s = .next t ∧ t.bound = true ∧ t.inputs = s.inputs ∧
      ((t.trace = s.trace ∧ t.rsp = s.rsp ∧ t.pending = some (.setRead f v)) ∨
       (t.trace = s.trace ++ [.read 0 none] ∧ t.rsp = some (.err .busError) ∧ t.pending = s.pending) ∨
       ∃ r w : Word, w.toNat = wordAfterSet f v.toNat r.toNat ∧
        ((t.trace = s.trace ++ [.read 0 (some r)] ∧ t.rsp = s.rsp ∧ t.pending = some (.setWrite w)) ∨
         (t.trace = s.trace ++ [.read 0 (some r), .write 0 w false] ∧ t.rsp = some (.err .busError) ∧
          t.pending = s.pending) ∨
         (t.trace = s.trace ++ [.read 0 (some r), .write 0 w true] ∧ t.rsp = some (.ok 0) ∧
          t.pending = s.pending ∧ t.mem.reg 0 = w)))) ∧
    (∀ u, memRead 0 s = (.fail, u) → exec (setterOf f v) s = .next { u with rsp := some (.err .busError) }) ∧
    (∀ u, memRead 0 s = (.silent, u) → exec (setterOf f v) s = .next { u with pending := some (.setRead f v) }) ∧
    (∀ u u' r, memRead 0 s = (.ok r, u) → ∃ w : Word, w.toNat = wordAfterSet f v.toNat r.toNat ∧
      (memWrite 0 w u = (.fail, u') → exec (setterOf f v) s = .next { u' with rsp := some (.err .busError) }) ∧
      (memWrite 0 w u = (.silent, u') → exec (setterOf f v) s = .next { u' with pending := some (.setWrite w) }) ∧
      (memWrite 0 w u = (.ok (), u') → exec (setterOf f v) s = .next { u' with rsp := some (.ok 0) }))

/-- R115: under the reference device, after a successful setter the matching getter returns the operand, and every other
getter answers what it answered before. -/
def Obligations.GetterReadsBackTheSetValue : Prop :=
  ∀ (f : CfgField) (v : Byte) (s : State), v.toNat ≤ setMax f → s.bound = true → s.ReferenceUp →
    ∃ t u, exec (setterOf f v) s = .next t ∧ exec (getterOf f) t = .next u ∧ u.rsp = some (.ok (v.setWidth 32)) ∧
      ∀ g, g ≠ f → ∃ x y, exec (getterOf g) t = .next x ∧ exec (getterOf g) s = .next y ∧ x.rsp = y.rsp

/-- R136: a setter whose read is followed by another master's write puts back the other fields as it had read them: the
other party's change is lost, whatever it was. -/
def Obligations.InterleavedWriteIsLost : Prop :=
  ∀ (f : CfgField) (v : Byte) (s : State) (other : Word), v.toNat ≤ setMax f → s.bound = true → s.line = .up →
    s.turns = [⟨[], .asLine⟩, ⟨[.reg 0 other], .asLine⟩] →
    ∃ t, exec (setterOf f v) s = .next t ∧ t.rsp = some (.ok 0) ∧
      (t.mem.reg 0).toNat = wordAfterSet f v.toNat (s.mem.reg 0).toNat

/-! ## INIT and RDLUX -/

/-- R116: under the reference device, INIT with a bus supplied writes 0x0000 to address 0 without reading, sets `bound`,
and answers `OK` with result 0, whatever `bound` was; nothing else changes. -/
def Obligations.InitWritesTheDefaultAndBinds : Prop :=
  ∀ (p : Byte) (s : State), p.toNat % 2 = 1 → s.ReferenceUp →
    ∃ m : Memory, exec (.init p) s = .next { s with
        bound := true, mem := m, trace := s.trace ++ [.write 0 0 true], rsp := some (.ok 0) } ∧
      m.reg 0 = 0 ∧ ∀ k, k ≠ lowKey params.addrCfg → k ≠ lowKey params.addrCfg + 1 → m.byte k = s.mem.byte k

/-- R116, R143: INIT without a bus answers `NotInitialized` and changes nothing; with one, it binds exactly when its write
succeeds: a failed write leaves `bound` as it was, and so does a write that is not answered, for which the command waits
(R143, log entry 7). -/
def Obligations.InitBindsOnlyOnASuccessfulWrite : Prop :=
  ∀ (p : Byte) (s u : State),
    (p.toNat % 2 = 0 → exec (.init p) s = .next { s with rsp := some (.err .notInitialized) }) ∧
    (p.toNat % 2 = 1 → memWrite 0 0 s = (.ok (), u) →
      exec (.init p) s = .next { u with bound := true, rsp := some (.ok 0) }) ∧
    (p.toNat % 2 = 1 → memWrite 0 0 s = (.fail, u) → exec (.init p) s = .next { u with rsp := some (.err .busError) }) ∧
    (p.toNat % 2 = 1 → memWrite 0 0 s = (.silent, u) → exec (.init p) s = .next { u with pending := some .initWrite })

/-- R117: after an INIT under the reference device, register 0 is 0x0000, RDCFG and the getters answer 0 but for GETIT,
which answers 2, and RDLUX answers what LUXMUL answers at gain ×1 and 100 ms. -/
def Obligations.DeviceHoldsTheDefaultAfterInit : Prop :=
  ∀ (p : Byte) (s : State), p.toNat % 2 = 1 → s.ReferenceUp → ∃ t, exec (.init p) s = .next t ∧ t.bound = true ∧ t.mem.reg 0 = 0 ∧
    (∀ i n, (i, n) ∈ ([(.rdcfg, 0), (.getsd, 0), (.getie, 0), (.getpers, 0), (.getit, 2), (.getgain, 0)] :
        List (Instr × Word32)) → ∃ u, exec i t = .next u ∧ u.rsp = some (.ok n)) ∧
    ∃ x y, exec .rdlux t = .next x ∧ exec (.luxmul 0 2 (t.mem.reg 4)) t = .next y ∧ x.rsp = y.rsp

/-- R118: under the reference device RDLUX reads address 0 twice and address 4 once, in this order, and answers what
LUXMUL answers for the gain, the LOGICAL integration-time index and the count the device holds, or `InvalidDeviceState`
when the pattern is not in the table; nothing else changes. -/
def Obligations.RdluxComputesTheDevicesIlluminance : Prop :=
  ∀ s : State, s.bound = true → s.ReferenceUp →
    let c := s.mem.reg 0
    let reads : List BusTxn := [.read 0 (some c), .read 0 (some c), .read 4 (some (s.mem.reg 4))]
    (indexOf (c.toNat / 64 % 16) < 6 → ∃ r y,
      exec .rdlux s = .next { s with trace := s.trace ++ reads, rsp := some (.ok r) } ∧
      exec (.luxmul (BitVec.ofNat 4 (c.toNat / 2048 % 4)) (BitVec.ofNat 4 (indexOf (c.toNat / 64 % 16))) (s.mem.reg 4)) s
        = .next y ∧ y.rsp = some (.ok r)) ∧
    (indexOf (c.toNat / 64 % 16) = 6 →
      exec .rdlux s = .next { s with trace := s.trace ++ reads, rsp := some (.err .invalidDeviceState) })

/-- R118's table of outcomes, R126, R137: whatever the environment does, each of RDLUX's three reads that fails ends it
with `BusError`; with three words read, the gain is the first word's, the time the second's, the count the third, and a
time outside the table answers `InvalidDeviceState`. -/
def Obligations.RdluxOutcomes : Prop :=
  ∀ (s s1 s2 s3 : State) (c1 c2 n : Word), s.bound = true →
    (memRead 0 s = (.fail, s1) → exec .rdlux s = .next { s1 with rsp := some (.err .busError) }) ∧
    (memRead 0 s = (.ok c1, s1) → memRead 0 s1 = (.fail, s2) →
      exec .rdlux s = .next { s2 with rsp := some (.err .busError) }) ∧
    (memRead 0 s = (.ok c1, s1) → memRead 0 s1 = (.ok c2, s2) → memRead 4 s2 = (.fail, s3) →
      exec .rdlux s = .next { s3 with rsp := some (.err .busError) }) ∧
    (memRead 0 s = (.ok c1, s1) → memRead 0 s1 = (.ok c2, s2) → memRead 4 s2 = (.ok n, s3) →
      indexOf (c2.toNat / 64 % 16) = 6 → exec .rdlux s = .next { s3 with rsp := some (.err .invalidDeviceState) }) ∧
    (memRead 0 s = (.ok c1, s1) → memRead 0 s1 = (.ok c2, s2) → memRead 4 s2 = (.ok n, s3) →
      indexOf (c2.toNat / 64 % 16) < 6 →
      exec .rdlux s = exec (.luxmul (BitVec.ofNat 4 (c1.toNat / 2048 % 4))
        (BitVec.ofNat 4 (indexOf (c2.toNat / 64 % 16))) n) s3)

/-- R118, R143: RDLUX waits at whichever of its three reads is not answered, keeping the gain and the time it has (log
entry 7). -/
def Obligations.RdluxWaitsAtAnyOfItsReads : Prop :=
  ∀ (s s1 s2 s3 : State) (c1 c2 : Word), s.bound = true →
    (memRead 0 s = (.silent, s1) → exec .rdlux s = .next { s1 with pending := some .luxGain }) ∧
    (memRead 0 s = (.ok c1, s1) → memRead 0 s1 = (.silent, s2) →
      exec .rdlux s = .next { s2 with pending := some (.luxTime (BitVec.ofNat 4 (c1.toNat / 2048 % 4))) }) ∧
    (memRead 0 s = (.ok c1, s1) → memRead 0 s1 = (.ok c2, s2) → memRead 4 s2 = (.silent, s3) →
      ∃ l, exec .rdlux s = .next { s3 with pending := some (.luxCount (BitVec.ofNat 4 (c1.toNat / 2048 % 4)) l) } ∧
        (l.elim 6 BitVec.toNat) = indexOf (c2.toNat / 64 % 16))

/-! ## Whole-machine rules -/

/-- R125: an operation that ends with an error ends with a kind of its row of the status table; so does a command that
goes on after waiting, with a kind of those it can still meet. -/
def Obligations.ErrorsAreThoseOfTheStatusTable : Prop :=
  (∀ (i : Instr) (s : State), s.rsp = none → ∃ t, exec i s = .next t ∧
    ∀ k, t.rsp = some (.err k) → k ∈ allowedErrors i) ∧
  (∀ (s t : State) (p : Wait), s.pending = some p → s.rsp = none → step s = .next t →
    ∀ k, t.rsp = some (.err k) → k ∈ p.errors)

/-- R127, R121: a failed operation leaves `bound` as it was, is over, and has written nothing to the device: none of its
transactions is a successful write, and the device, the bus and everything else are what the environment's own turns at
those transactions left, but for the trace and the response. The same of a command that fails after waiting. -/
def Obligations.FailedOperationChangesNothing : Prop :=
  (∀ (i : Instr) (s t : State) (k : ErrorKind), s.rsp = none → s.pending = none → exec i s = .next t →
    t.rsp = some (.err k) → t.bound = s.bound ∧ t.pending = none ∧ t.inputs = s.inputs ∧
      (s.turns = [] → t.mem = s.mem) ∧
      ∃ new, t = { turnsTaken new.length s with trace := s.trace ++ new, rsp := some (.err k) } ∧
        ∀ x ∈ new, ∀ a w, x ≠ .write a w true) ∧
  (∀ (s t : State) (p : Wait) (k : ErrorKind), s.pending = some p → s.rsp = none → step s = .next t →
    t.rsp = some (.err k) → t.bound = s.bound ∧ t.pending = none ∧ t.inputs = s.inputs ∧
      (s.turns = [] → t.mem = s.mem) ∧
      ∃ new, t = { turnsTaken new.length s with
          pending := none, trace := s.trace ++ new, rsp := some (.err k) } ∧
        ∀ x ∈ new, ∀ a w, x ≠ .write a w true)

/-- R42, R41 items 1, 4, 5: an operation appends at most three transactions to the trace, every one but the last of them
succeeded, and a failed last one ends the operation with `BusError`: nothing is retried and nothing follows a failure.
The same of a command that goes on after waiting, which appends at most those it has left. -/
def Obligations.OperationsFailFast : Prop :=
  (∀ (i : Instr) (s : State), ∃ t new, exec i s = .next t ∧ t.trace = s.trace ++ new ∧ new.length ≤ 3 ∧
    (∀ x ∈ new.dropLast, x.succeeded = true) ∧
    (∀ x ∈ new, x.succeeded = false → t.rsp = some (.err .busError) ∧ t.pending = s.pending)) ∧
  (∀ (s t : State) (p : Wait), s.pending = some p → step s = .next t →
    ∃ new, t.trace = s.trace ++ new ∧ new.length ≤ p.transactionsLeft ∧
      (∀ x ∈ new.dropLast, x.succeeded = true) ∧
      (∀ x ∈ new, x.succeeded = false → t.rsp = some (.err .busError) ∧ t.pending = none))

/-- R15, R131: a step that sets `bound` ends an INIT, accepted with a bus supplied or in progress, whose write of 0x0000
to address 0 succeeded; a step that clears it is a reset between commands. -/
def Obligations.BoundIsSetByInitAndClearedByReset : Prop :=
  ∀ s t : State, step s = .next t →
    (s.bound = false → t.bound = true →
      t.trace = s.trace ++ [.write 0 0 true] ∧ t.rsp = some (.ok 0) ∧
      (s.pending = some .initWrite ∨
        ∃ c rest, s.pending = none ∧ s.inputs = .command c :: rest ∧ c.extractLsb' 24 8 = 0x60 ∧
          c.getLsbD 16 = true)) ∧
    (s.bound = true → t.bound = false → s.pending = none ∧ ∃ rest, s.inputs = .reset :: rest)

/-- R41, R30: the invariant every step keeps: the memory is canonical and lists only the device's registers, the trace
holds only reads of addresses 0 and 4 and writes of address 0, a command in progress is one that may be, and while it is
there is no response. -/
def Obligations.StepKeepsTheInvariant : Prop :=
  ∀ s t : State, s.Inv → step s = .next t → t.Inv

/-- The machine after reset meets the invariant. -/
def Obligations.ResetMeetsTheInvariant : Prop := State.reset.Inv

/-- R127, R133, U12: the machine never stops with a fault, and a step is refused only for a reset during a command. R9,
R11: with nothing presented and no command in progress nothing happens: the state is as it was, the device, the bus, the
response and the trace with it. -/
def Obligations.StepStopsOnlyForResetDuringCommand : Prop :=
  ∀ s : State, ((∃ t, step s = .next t) ∨
    (step s = .refused .resetDuringCommand ∧ s.pending ≠ none ∧ ∃ rest, s.inputs = .reset :: rest)) ∧
    (s.inputs = [] → s.pending = none → step s = .next s)

/-- R118, R42, R143: the other ends of an RDLUX that waits for its second or third read, when the transport has its turn
again: a failed read ends it with `BusError`; a read without an answer leaves it waiting there with the gain and the time
it has (log entry 7); and with its reads done, a time outside the table answers `InvalidDeviceState`. -/
def Obligations.WaitingRdluxFailsOrWaitsAtItsLaterReads : Prop :=
  ∀ (s u u' : State) (g : BitVec 4) (w n : Word), (s.inputs = [] ∨ ∃ c rest, s.inputs = .command c :: rest) →
    (s.pending = some (.luxTime g) →
      (memRead 0 { s with pending := none } = (.fail, u) → step s = .next { u with rsp := some (.err .busError) }) ∧
      (memRead 0 { s with pending := none } = (.silent, u) → step s = .next { u with pending := some (.luxTime g) }) ∧
      (memRead 0 { s with pending := none } = (.ok w, u) →
        (memRead 4 u = (.fail, u') → step s = .next { u' with rsp := some (.err .busError) }) ∧
        (memRead 4 u = (.silent, u') → ∃ t, step s = .next { u' with pending := some (.luxCount g t) } ∧
          t.elim 6 BitVec.toNat = indexOf (w.toNat / 64 % 16)) ∧
        (memRead 4 u = (.ok n, u') → indexOf (w.toNat / 64 % 16) = 6 →
          step s = .next { u' with rsp := some (.err .invalidDeviceState) }))) ∧
    (∀ t, s.pending = some (.luxCount g t) →
      (memRead 4 { s with pending := none } = (.fail, u) → step s = .next { u with rsp := some (.err .busError) }) ∧
      (memRead 4 { s with pending := none } = (.silent, u) →
        step s = .next { u with pending := some (.luxCount g t) }) ∧
      (memRead 4 { s with pending := none } = (.ok n, u) → t = none →
        step s = .next { u with rsp := some (.err .invalidDeviceState) }))
end

