-- ==== Sys2Proof/Laws/Decode.lean ====
section
/-! SUPPORT. The fields of a command word built by the encoder (`30_encoding.md` R47). -/

namespace Sys2Proof

@[simp] theorem opOf_commandWord (op v : Byte) (w : Word) : opOf (commandWord op v w) = op := by
  ext i hi
  simp only [opOf, commandWord, BitVec.getElem_extractLsb', BitVec.getLsbD_append]
  simp [show ¬(24 + i < 16) by omega, show ¬(24 + i - 16 < 8) by omega, show 24 + i - 16 - 8 = i by omega,
    BitVec.getLsbD_eq_getElem hi]

@[simp] theorem vOf_commandWord (op v : Byte) (w : Word) : vOf (commandWord op v w) = v := by
  ext i hi
  simp only [vOf, commandWord, BitVec.getElem_extractLsb', BitVec.getLsbD_append]
  simp [show ¬(16 + i < 16) by omega, hi, show 16 + i - 16 = i by omega]

@[simp] theorem wOf_commandWord (op v : Byte) (w : Word) : wOf (commandWord op v w) = w := by
  ext i hi
  simp only [wOf, commandWord, BitVec.getElem_extractLsb', BitVec.getLsbD_append]
  simp [hi]

@[simp] theorem opOf_encode (i : Instr) : opOf (encode i) = i.opcode := opOf_commandWord _ _ _
@[simp] theorem vOf_encode (i : Instr) : vOf (encode i) = i.vOperand := vOf_commandWord _ _ _
@[simp] theorem wOf_encode (i : Instr) : wOf (encode i) = i.wOperand := wOf_commandWord _ _ _

@[simp] theorem gainIndexOf_append (g t : BitVec 4) : gainIndexOf (g ++ t) = g := by
  ext i hi
  simp only [gainIndexOf, BitVec.getElem_extractLsb', BitVec.getLsbD_append]
  simp [show ¬(4 + i < 4) by omega, BitVec.getLsbD_eq_getElem hi]

@[simp] theorem timeIndexOf_append (g t : BitVec 4) : timeIndexOf (g ++ t) = t := by
  ext i hi
  simp only [timeIndexOf, BitVec.getElem_extractLsb', BitVec.getLsbD_append]
  simp [hi]

open Sys2Proof.Machine

/-- A word whose `op` is none of the 30 is refused, by its `op` (R55). -/
theorem decode_illegal {c : Word32} (h : c.extractLsb' 24 8 ∉ definedOps) :
    decode c = .error (.illegalOpcode (c.extractLsb' 24 8)) := by
  have e : opOf c = BitVec.ofNat 8 (opOf c).toNat := by simp
  unfold decode
  split
  all_goals first
    | rfl
    | (rename_i heq; rw [heq] at e; exact absurd (show c.extractLsb' 24 8 ∈ definedOps by
        have : c.extractLsb' 24 8 = opOf c := rfl
        rw [this, e]; decide) h)

/-- A word whose `op` is one of the 30 is an instruction, whatever its other bits are (R54). -/
theorem decode_legal {c : Word32} (h : c.extractLsb' 24 8 ∈ definedOps) : ∃ i, decode c = .ok i := by
  simp only [definedOps, List.mem_cons, List.not_mem_nil, or_false] at h
  unfold decode opOf
  rcases h with h|h|h|h|h|h|h|h|h|h|h|h|h|h|h|h|h|h|h|h|h|h|h|h|h|h|h|h|h|h <;> rw [h] <;> exact ⟨_, rfl⟩

end Sys2Proof
end

