-- ==== Sys2Proof/Laws/Fields.lean ====
section
/-! SUPPORT. What extracting, inserting, packing and translating compute, as numbers and bit by bit. -/

namespace Sys2Proof.Machine

@[simp] theorem cfgDefault_eq_zero : cfgDefault = 0 := rfl

/-- The default word is packed from its five values (R79). -/
theorem cfgDefault_eq_pack : cfgDefault = pack 0 0 0 (itEncPort 2) 0 := by decide

/-- Every field lies in the word: `LO_F + W_F <= 16` (R65). -/
theorem field_fits_word (f : CfgField) : params.lo f + params.width f ≤ 16 := by cases f <;> decide

/-- A field value is its bits of the word, as a number. -/
theorem extract_toNat (f : CfgField) (w : Word) :
    (fieldExtract f w).toNat = w.toNat / 2 ^ params.lo f % 2 ^ params.width f := by
  have hw : params.width f ≤ 16 := le_trans (Nat.le_add_left _ _) (field_fits_word f)
  have h1 : 2 ^ params.width f - 1 < 2 ^ 16 :=
    lt_of_lt_of_le (Nat.sub_lt (Nat.two_pow_pos _) one_pos) (Nat.pow_le_pow_right (by decide) hw)
  rw [fieldExtract, fieldOnes, BitVec.toNat_and, BitVec.toNat_ofNat, Nat.mod_eq_of_lt h1, BitVec.toNat_ushiftRight,
    Nat.shiftRight_eq_div_pow, Nat.and_two_pow_sub_one_eq_mod]

/-- A field value fits its field. -/
theorem extract_lt (f : CfgField) (w : Word) : (fieldExtract f w).toNat < 2 ^ params.width f := by
  rw [extract_toNat]; exact Nat.mod_lt _ (Nat.two_pow_pos _)

/-- The bits of the field's value mask. -/
theorem getLsbD_fieldOnes (f : CfgField) (i : Nat) : (fieldOnes f).getLsbD i = decide (i < params.width f) := by
  have := field_fits_word f
  rw [fieldOnes, BitVec.getLsbD_ofNat, Nat.testBit_two_pow_sub_one, Bool.and_eq_right_iff_imp]
  intro h
  have := of_decide_eq_true h
  exact decide_eq_true (by omega)

/-- The bits of the field's mask. -/
theorem getLsbD_fieldMask (f : CfgField) (i : Nat) :
    (fieldMask f).getLsbD i = decide (params.lo f ≤ i ∧ i < params.lo f + params.width f) := by
  have := field_fits_word f
  rw [fieldMask, BitVec.getLsbD_shiftLeft, getLsbD_fieldOnes, Bool.eq_iff_iff]
  simp only [Bool.and_eq_true, Bool.not_eq_true', decide_eq_true_eq, decide_eq_false_iff_not]
  omega

/-- A bit of a field value is the word's bit that stands `LO_F` higher. -/
theorem getLsbD_extract (f : CfgField) (w : Word) (i : Nat) :
    (fieldExtract f w).getLsbD i = (w.getLsbD (params.lo f + i) && decide (i < params.width f)) := by
  rw [fieldExtract, BitVec.getLsbD_and, BitVec.getLsbD_ushiftRight, getLsbD_fieldOnes]

/-- A bit of an insertion is the field value's inside the field and the word's outside it (R61). -/
theorem getLsbD_insert (f : CfgField) (w x : Word) (hx : x.toNat < 2 ^ params.width f) (i : Nat) :
    (fieldInsert f w x).getLsbD i =
      if params.lo f ≤ i ∧ i < params.lo f + params.width f then x.getLsbD (i - params.lo f) else w.getLsbD i := by
  have hf := field_fits_word f
  have hout : ∀ j, params.width f ≤ j → x.getLsbD j = false := fun j hj =>
    Nat.testBit_lt_two_pow (lt_of_lt_of_le hx (Nat.pow_le_pow_right (by decide) hj))
  rw [fieldInsert, BitVec.getLsbD_or, BitVec.getLsbD_and, BitVec.getLsbD_not, BitVec.getLsbD_shiftLeft, getLsbD_fieldMask]
  by_cases hi : i < 16
  · by_cases hl : params.lo f ≤ i
    · by_cases hu : i < params.lo f + params.width f
      · simp [hi, hl, hu, not_lt.mpr hl]
      · simp [hi, hl, hu, hout (i - params.lo f) (by omega)]
    · simp [hi, hl, not_le.mp hl]
  · rw [if_neg (by omega), BitVec.getLsbD_of_ge _ _ (by omega)]
    simp [hi]

/-- A value that fits its field stays itself when a setter's operand is widened to it. -/
theorem setterValue_fits (f : CfgField) (v : Byte) (hv : v.toNat ≤ setMax f) :
    (setterValue f v).toNat < 2 ^ params.width f := by
  cases f
  case it =>
    simp only [setterValue, params, BitVec.toNat_setWidth]
    exact lt_of_le_of_lt (Nat.mod_le _ _) (itEncPort v).isLt
  all_goals
    simp only [setterValue, params, setMax, BitVec.toNat_setWidth] at hv ⊢
    omega

/-- An insertion as a number: the field's bits are replaced (R61). -/
theorem insert_toNat (f : CfgField) (w x : Word) (hx : x.toNat < 2 ^ params.width f) :
    (fieldInsert f w x).toNat = replaceBits (params.lo f) (params.width f) x.toNat w.toNat := by
  have hf := field_fits_word f
  have hk : (fieldInsert f w x).toNat = (BitVec.ofNat 16 (replaceBits (params.lo f) (params.width f) x.toNat w.toNat)).toNat := by
    congr 1
    apply BitVec.eq_of_getLsbD_eq
    intro i hi
    rw [getLsbD_insert f w x hx, BitVec.getLsbD_ofNat]
    simp only [hi, decide_true, Bool.true_and]
    set lo := params.lo f
    set wd := params.width f
    have e1 : replaceBits lo wd x.toNat w.toNat = 2 ^ lo * (2 ^ wd * (w.toNat / 2 ^ (lo + wd)) + x.toNat) + w.toNat % 2 ^ lo := by
      unfold replaceBits; rw [pow_add]; ring
    rw [e1, Nat.testBit_two_pow_mul_add _ (Nat.mod_lt _ (Nat.two_pow_pos _))]
    by_cases h1 : i < lo
    · rw [if_pos h1, if_neg (by omega), Nat.testBit_mod_two_pow]; simp [h1, BitVec.getLsbD]
    · rw [if_neg h1, Nat.testBit_two_pow_mul_add _ hx]
      by_cases h2 : i - lo < wd
      · rw [if_pos h2, if_pos (by omega)]; rfl
      · rw [if_neg h2, if_neg (by omega), Nat.testBit_div_two_pow, show i - lo - wd + (lo + wd) = i by omega]; rfl
  rw [hk, BitVec.toNat_ofNat, Nat.mod_eq_of_lt]
  have hw := w.isLt
  set lo := params.lo f
  set wd := params.width f
  unfold replaceBits
  have h3 : w.toNat / 2 ^ (lo + wd) < 2 ^ (16 - (lo + wd)) := by
    rw [Nat.div_lt_iff_lt_mul (Nat.two_pow_pos _), ← pow_add, show 16 - (lo + wd) + (lo + wd) = 16 by omega]; exact hw
  have h4 := Nat.mod_lt w.toNat (Nat.two_pow_pos lo)
  have h5 : x.toNat * 2 ^ lo + w.toNat % 2 ^ lo < 2 ^ (lo + wd) := by
    rw [pow_add, Nat.mul_comm (2 ^ lo)]
    calc _ < x.toNat * 2 ^ lo + 2 ^ lo := by omega
      _ = (x.toNat + 1) * 2 ^ lo := by ring
      _ ≤ _ := Nat.mul_le_mul_right _ hx
  have h6 : (w.toNat / 2 ^ (lo + wd) + 1) * 2 ^ (lo + wd) ≤ 2 ^ 16 := by
    calc _ ≤ 2 ^ (16 - (lo + wd)) * 2 ^ (lo + wd) := Nat.mul_le_mul_right _ h3
      _ = 2 ^ 16 := by rw [← pow_add, show 16 - (lo + wd) + (lo + wd) = 16 by omega]
  rw [Nat.add_mul] at h6
  omega

/-- Two fields lie apart (R65). -/
theorem fields_apart {f g : CfgField} (h : g ≠ f) :
    params.lo g + params.width g ≤ params.lo f ∨ params.lo f + params.width f ≤ params.lo g := by
  cases f <;> cases g <;> first | (exact absurd rfl h) | decide

end Sys2Proof.Machine
end

