-- ==== Sys2Proof/Laws/Float32.lean ====
section
/-! SUPPORT. The format of `42_lux.md` R90 as numbers, and what the one rounding of R94 does. -/

namespace Sys2Proof.Machine

theorem f32Exponent_eq (a : Word32) : f32Exponent a = (a.extractLsb' 23 8).toNat := rfl
theorem f32Fraction_eq (a : Word32) : f32Fraction a = (a.extractLsb' 0 23).toNat := rfl
theorem f32Sign_eq (a : Word32) : f32Sign a = a.extractLsb' 31 1 := rfl
theorem f32Finite_eq (a : Word32) : f32Finite a = (f32Exponent a != 255) := rfl

theorem f32Magnitude_eq (a : Word32) :
    f32Magnitude a = if f32Exponent a = 0 then f32Fraction a else (2 ^ 23 + f32Fraction a) * 2 ^ (f32Exponent a - 1) :=
  rfl

theorem roundMagnitude_eq (n : Nat) : roundMagnitude n =
    min ((max (bitLength n - 24) 149 - 149) * 2 ^ 23 + roundShift n (max (bitLength n - 24) 149)) (255 * 2 ^ 23) := rfl

theorem u16ToF32_eq (n : Word) : u16ToF32 n = if n = 0 then 0 else
    BitVec.ofNat 32 ((127 + Nat.log2 n.toNat) * 2 ^ 23 + (n.toNat * 2 ^ (23 - Nat.log2 n.toNat) - 2 ^ 23)) := rfl

/-- The rounded quotient is within half a unit of the exact one, and even when it is half a unit away. -/
theorem roundShift_within_half (n k : Nat) :
    2 * ((n : Int) - (roundShift n k * 2 ^ k : Nat)).natAbs ≤ 2 ^ k ∧
      (2 * ((n : Int) - (roundShift n k * 2 ^ k : Nat)).natAbs = 2 ^ k → roundShift n k % 2 = 0) := by
  have hn := Nat.div_add_mod n (2 ^ k)
  have hr := Nat.mod_lt n (Nat.two_pow_pos k)
  rw [Nat.mul_comm] at hn
  have hs : (n / 2 ^ k + 1) * 2 ^ k = n / 2 ^ k * 2 ^ k + 2 ^ k := Nat.succ_mul _ _
  simp only [roundShift]
  generalize n / 2 ^ k = q at *
  generalize n % 2 ^ k = r at *
  generalize 2 ^ k = u at *
  split
  · omega
  · split
    · rw [hs]; omega
    · rcases Nat.mod_two_eq_zero_or_one q with e | e
      · rw [e, Nat.add_zero]; omega
      · rw [e, hs]; omega

/-- No multiple of the unit is nearer to `n` than the rounded one. -/
theorem roundShift_nearest (n k m : Nat) :
    ((n : Int) - (roundShift n k * 2 ^ k : Nat)).natAbs ≤ ((n : Int) - (m * 2 ^ k : Nat)).natAbs := by
  have h := (roundShift_within_half n k).1
  by_cases e : m = roundShift n k
  · rw [e]
  · have hd : (m * 2 ^ k : Int) ≤ roundShift n k * 2 ^ k - 2 ^ k ∨ (roundShift n k * 2 ^ k + 2 ^ k : Int) ≤ m * 2 ^ k := by
      have hp : (0 : Int) ≤ 2 ^ k := by positivity
      rcases Nat.lt_or_gt_of_ne e with l | l
      · left; nlinarith [(by exact_mod_cast l : (m : Int) + 1 ≤ roundShift n k)]
      · right; nlinarith [(by exact_mod_cast l : (roundShift n k : Int) + 1 ≤ m)]
    have hu : ((2 ^ k : Nat) : Int) = 2 ^ k := by push_cast; rfl
    push_cast at h hd ⊢
    generalize (2 : Nat) ^ k = u at *
    generalize (2 : Int) ^ k = v at *
    omega

/-- Below half a unit past `m` units, the rounded quotient is at most `m`. -/
theorem roundShift_le {n k m : Nat} (h : 2 * n < (2 * m + 1) * 2 ^ k) : roundShift n k ≤ m := by
  have w := (roundShift_within_half n k).1
  by_contra hc
  have hm : (m + 1) * 2 ^ k ≤ roundShift n k * 2 ^ k := Nat.mul_le_mul_right _ (not_le.mp hc)
  have e1 : (2 * m + 1) * 2 ^ k = 2 * (m * 2 ^ k) + 2 ^ k := by ring
  have e2 : (m + 1) * 2 ^ k = m * 2 ^ k + 2 ^ k := by ring
  rw [e1] at h
  rw [e2] at hm
  generalize roundShift n k * 2 ^ k = r at *
  generalize m * 2 ^ k = q at *
  generalize 2 ^ k = u at *
  omega

/-- A number of bits bounds the number. -/
theorem lt_two_pow_bitLength (n : Nat) : n < 2 ^ bitLength n := by
  unfold bitLength
  split
  · subst n; decide
  · exact Nat.lt_log2_self

/-- A number below a power of two has no more bits than the power says. -/
theorem bitLength_le {n k : Nat} (h : n < 2 ^ k) : bitLength n ≤ k := by
  unfold bitLength
  split
  · exact Nat.zero_le k
  · exact (Nat.log2_lt ‹_›).mpr h

/-- A product below the middle of the largest finite number and the next power of two rounds to a finite pattern. -/
theorem roundMagnitude_lt {n : Nat} (h : n < (2 ^ 25 - 1) * 2 ^ 252 * 2 ^ 149) : roundMagnitude n < 255 * 2 ^ 23 := by
  have p : (2 : Nat) ^ 252 * 2 ^ 149 = 2 ^ 401 := by rw [← pow_add]
  rw [mul_assoc, p] at h
  have hb : bitLength n ≤ 426 := bitLength_le (lt_of_lt_of_le h (by
    have : (2 : Nat) ^ 426 = 2 ^ 25 * 2 ^ 401 := by rw [← pow_add]
    rw [this]; exact Nat.mul_le_mul_right _ (by decide)))
  rw [roundMagnitude_eq]
  refine lt_of_le_of_lt (min_le_left _ _) ?_
  generalize hk : max (bitLength n - 24) 149 = k
  have hn := lt_two_pow_bitLength n
  by_cases he : k = 402
  · subst he
    have := roundShift_le (n := n) (k := 402) (m := 2 ^ 24 - 1) (by
      have : (2 : Nat) ^ 402 = 2 * 2 ^ 401 := by rw [← pow_succ']
      rw [this]; generalize (2 : Nat) ^ 401 = u at *; omega)
    omega
  · have := roundShift_le (n := n) (k := k) (m := 2 ^ 24) (by
      have e : (2 : Nat) ^ bitLength n ≤ 2 ^ (24 + k) := Nat.pow_le_pow_right (by decide) (by omega)
      rw [pow_add] at e; generalize (2 : Nat) ^ k = u at *; omega)
    omega

/-- The product of two finite numbers is finite when it is in range. -/
theorem f32Mul_finite {a b : Word32} (ha : f32Finite a = true) (hb : f32Finite b = true)
    (h : f32Magnitude a * f32Magnitude b < (2 ^ 25 - 1) * 2 ^ 252 * 2 ^ 149) : f32Finite (f32Mul a b) = true := by
  have hr := roundMagnitude_lt h
  simp only [f32Mul, ha, hb, Bool.and_self, if_true]
  generalize roundMagnitude _ = r at *
  simp only [f32Finite_eq, f32Exponent_eq, bne_iff_ne, ne_eq]
  rw [BitVec.extractLsb'_toNat, BitVec.toNat_append, BitVec.toNat_ofNat,
    Nat.mod_eq_of_lt (show r < 2 ^ 31 by omega), ← Nat.shiftLeft_add_eq_or_of_lt (show r < 2 ^ 31 by omega), Nat.shiftLeft_eq, Nat.shiftRight_eq_div_pow]
  omega

end Sys2Proof.Machine
end

