-- ==== Sys2Proof/Laws/Memory.lean ====
section
/-! SUPPORT. The laws of the device's register space: read after write, a write leaves every other byte alone, and every
operation keeps the canonical form. -/

namespace Sys2Proof.Machine

/-- The canonical form, said with the library's predicates. -/
theorem Memory.wf_iff (m : Memory) : m.wf = true ↔ m.Pairwise (fun c d => c.1 < d.1) ∧ ∀ c ∈ m, c.2 ≠ 0 := by
  induction m with
  | nil => simp [Memory.wf]
  | cons c rest ih =>
    cases rest with
    | nil => simp [Memory.wf]
    | cons d rest =>
      simp only [Memory.wf, Bool.and_eq_true, bne_iff_ne, decide_eq_true_eq, ih, List.pairwise_cons, List.mem_cons,
        forall_eq_or_imp]
      constructor
      · rintro ⟨⟨hc, hlt⟩, ⟨hd, hp⟩, hd0, hr⟩
        exact ⟨⟨⟨hlt, fun e he => lt_trans hlt (hd e he)⟩, hd, hp⟩, hc, hd0, hr⟩
      · rintro ⟨⟨⟨hlt, _⟩, hd, hp⟩, hc, hd0, hr⟩
        exact ⟨⟨hc, hlt⟩, ⟨hd, hp⟩, hd0, hr⟩

theorem Memory.byte_erase_same (m : Memory) (k : Nat) : (m.erase k).byte k = 0 := by
  induction m with
  | nil => rfl
  | cons c rest ih =>
    by_cases h : c.1 = k
    · simpa [Memory.erase, h] using ih
    · simp only [Memory.erase, List.filter_cons, bne_iff_ne, ne_eq, h, not_false_eq_true, if_true] at ih ⊢
      rw [Memory.byte, if_neg (Ne.symm h)]
      exact ih

theorem Memory.byte_erase_other (m : Memory) {k k' : Nat} (h : k' ≠ k) : (m.erase k).byte k' = m.byte k' := by
  induction m with
  | nil => rfl
  | cons c rest ih =>
    by_cases hc : c.1 = k
    · have : (Memory.erase (c :: rest) k) = Memory.erase rest k := by simp [Memory.erase, hc]
      rw [this, ih, Memory.byte, if_neg (by rw [hc]; exact h)]
    · have : (Memory.erase (c :: rest) k) = c :: Memory.erase rest k := by simp [Memory.erase, hc]
      rw [this, Memory.byte, Memory.byte, ih]

theorem Memory.byte_place_same (m : Memory) (k : Nat) (b : Byte) (h : ∀ c ∈ m, c.1 ≠ k) : (m.place k b).byte k = b := by
  induction m with
  | nil => simp [Memory.place, Memory.byte]
  | cons c rest ih =>
    rw [Memory.place]
    split
    · simp [Memory.byte]
    · rw [Memory.byte, if_neg (Ne.symm (h c (by simp)))]
      exact ih (fun d hd => h d (by simp [hd]))

theorem Memory.byte_place_other (m : Memory) {k k' : Nat} (b : Byte) (h : k' ≠ k) :
    (m.place k b).byte k' = m.byte k' := by
  induction m with
  | nil => simp [Memory.place, Memory.byte, h]
  | cons c rest ih =>
    rw [Memory.place]
    split
    · rw [Memory.byte, if_neg h]
    · rw [Memory.byte, Memory.byte, ih]

theorem Memory.ne_of_mem_erase {m : Memory} {k : Nat} {c : Host.Cell} (h : c ∈ m.erase k) : c.1 ≠ k := by
  simpa using (List.mem_filter.mp h).2

/-- Read after write. -/
@[simp] theorem Memory.byte_setByte_same (m : Memory) (k : Nat) (b : Byte) : (m.setByte k b).byte k = b := by
  unfold Memory.setByte
  split
  · rename_i h; rw [Memory.byte_erase_same, h]
  · exact Memory.byte_place_same _ _ _ (fun c hc => Memory.ne_of_mem_erase hc)

/-- A write leaves every other byte alone. -/
theorem Memory.byte_setByte_other (m : Memory) {k k' : Nat} (b : Byte) (h : k' ≠ k) :
    (m.setByte k b).byte k' = m.byte k' := by
  unfold Memory.setByte
  split
  · exact Memory.byte_erase_other m h
  · rw [Memory.byte_place_other _ b h, Memory.byte_erase_other m h]

theorem Memory.mem_place {m : Memory} {k : Nat} {b : Byte} {c : Host.Cell} (h : c ∈ m.place k b) :
    c = (k, b) ∨ c ∈ m := by
  induction m with
  | nil => simpa [Memory.place] using h
  | cons d rest ih =>
    rw [Memory.place] at h
    split at h
    · simpa using h
    · rcases List.mem_cons.mp h with h | h
      · exact .inr (by simp [h])
      · exact (ih h).imp id (fun h => by simp [h])

theorem Memory.wf_erase {m : Memory} (h : m.wf = true) (k : Nat) : (m.erase k).wf = true := by
  rw [Memory.wf_iff] at h ⊢
  exact ⟨h.1.filter _, fun c hc => h.2 c (List.mem_of_mem_filter hc)⟩

theorem Memory.wf_place {m : Memory} (h : m.wf = true) {k : Nat} {b : Byte} (hk : ∀ c ∈ m, c.1 ≠ k) (hb : b ≠ 0) :
    (m.place k b).wf = true := by
  induction m with
  | nil => simpa [Memory.place, Memory.wf] using hb
  | cons c rest ih =>
    have hr : Memory.wf rest = true := by
      rw [Memory.wf_iff] at h ⊢
      exact ⟨(List.pairwise_cons.mp h.1).2, fun d hd => h.2 d (by simp [hd])⟩
    rw [Memory.place]
    split
    · rename_i hlt
      simp only [Memory.wf, Bool.and_eq_true, bne_iff_ne, decide_eq_true_eq]
      exact ⟨⟨hb, hlt⟩, h⟩
    · rename_i hlt
      have hck : c.1 < k := lt_of_le_of_ne (Nat.le_of_not_lt hlt) (hk c (by simp))
      have hp := ih hr (fun d hd => hk d (by simp [hd]))
      rw [Memory.wf_iff] at h hp ⊢
      refine ⟨List.pairwise_cons.mpr ⟨fun d hd => ?_, hp.1⟩, ?_⟩
      · rcases Memory.mem_place hd with rfl | hd
        · exact hck
        · exact (List.pairwise_cons.mp h.1).1 d hd
      · intro d hd
        rcases List.mem_cons.mp hd with rfl | hd
        · exact h.2 _ (by simp)
        · exact hp.2 d hd

/-- Setting a byte keeps the canonical form. -/
theorem Memory.wf_setByte {m : Memory} (h : m.wf = true) (k : Nat) (b : Byte) : (m.setByte k b).wf = true := by
  unfold Memory.setByte
  split
  · exact Memory.wf_erase h k
  · rename_i hb
    exact Memory.wf_place (Memory.wf_erase h k) (fun c hc => Memory.ne_of_mem_erase hc) hb

/-- Setting a register keeps the canonical form. -/
theorem Memory.wf_setReg {m : Memory} (h : m.wf = true) (a : Byte) (v : Word) : (m.setReg a v).wf = true :=
  Memory.wf_setByte (Memory.wf_setByte h _ _) _ _

theorem Memory.mem_setByte {m : Memory} {k : Nat} {b : Byte} {c : Host.Cell} (h : c ∈ m.setByte k b) :
    c.1 = k ∨ c ∈ m := by
  unfold Memory.setByte at h
  split at h
  · exact .inr (List.mem_of_mem_filter h)
  · rcases Memory.mem_place h with rfl | h
    · exact .inl rfl
    · exact .inr (List.mem_of_mem_filter h)

/-- A cell of memory after a register was set is one of that register's two bytes, or was there before. -/
theorem Memory.mem_setReg {m : Memory} {a : Byte} {v : Word} {c : Host.Cell} (h : c ∈ m.setReg a v) :
    c.1 = lowKey a ∨ c.1 = lowKey a + 1 ∨ c ∈ m := by
  rcases Memory.mem_setByte h with h | h
  · exact .inr (.inl h)
  · exact (Memory.mem_setByte h).imp id .inr

/-- A byte outside the register's two is not changed by setting it. -/
theorem Memory.byte_setReg_other (m : Memory) {a : Byte} (v : Word) {k : Nat} (h0 : k ≠ lowKey a)
    (h1 : k ≠ lowKey a + 1) : (m.setReg a v).byte k = m.byte k := by
  rw [Memory.setReg, Memory.byte_setByte_other _ _ h1, Memory.byte_setByte_other _ _ h0]

/-- The first wire byte of a register is its low byte. -/
theorem Memory.byte_setReg_low (m : Memory) (a : Byte) (v : Word) :
    (m.setReg a v).byte (lowKey a) = v.extractLsb' 0 8 := by
  rw [Memory.setReg, Memory.byte_setByte_other _ _ (by omega), Memory.byte_setByte_same]

/-- The second wire byte of a register is its high byte. -/
theorem Memory.byte_setReg_high (m : Memory) (a : Byte) (v : Word) :
    (m.setReg a v).byte (lowKey a + 1) = v.extractLsb' 8 8 := by
  rw [Memory.setReg, Memory.byte_setByte_same]

theorem bytes_append (v : Word) : v.extractLsb' 8 8 ++ v.extractLsb' 0 8 = v := by
  ext i hi
  simp only [BitVec.getElem_append, BitVec.getElem_extractLsb']
  split
  · simp [BitVec.getLsbD_eq_getElem hi]
  · rw [show 8 + (i - 8) = i by omega, BitVec.getLsbD_eq_getElem hi]

/-- Read after write, of a register. -/
@[simp] theorem Memory.reg_setReg_same (m : Memory) (a : Byte) (v : Word) : (m.setReg a v).reg a = v := by
  rw [Memory.reg, Memory.byte_setReg_low, Memory.byte_setReg_high, bytes_append]

/-- Setting a register leaves every other register alone. -/
theorem Memory.reg_setReg_other (m : Memory) {a b : Byte} (v : Word) (h : b ≠ a) : (m.setReg a v).reg b = m.reg b := by
  have : b.toNat ≠ a.toNat := fun e => h (BitVec.eq_of_toNat_eq e)
  rw [Memory.reg, Memory.reg, Memory.byte_setReg_other _ _ (by unfold lowKey; omega) (by unfold lowKey; omega),
    Memory.byte_setReg_other _ _ (by unfold lowKey; omega) (by unfold lowKey; omega)]

end Sys2Proof.Machine
end

