-- ==== Sys2Proof/Laws/State.lean ====
section
/-! SUPPORT. One lemma per field per update of the state, so that no later proof unfolds a record update. -/

namespace Sys2Proof.Machine

@[simp] theorem respond_bound (r : Response) (s : State) : (s.respond r).bound = s.bound := rfl
@[simp] theorem respond_pending (r : Response) (s : State) : (s.respond r).pending = s.pending := rfl
@[simp] theorem respond_rsp (r : Response) (s : State) : (s.respond r).rsp = some r := rfl
@[simp] theorem respond_inputs (r : Response) (s : State) : (s.respond r).inputs = s.inputs := rfl
@[simp] theorem respond_mem (r : Response) (s : State) : (s.respond r).mem = s.mem := rfl
@[simp] theorem respond_line (r : Response) (s : State) : (s.respond r).line = s.line := rfl
@[simp] theorem respond_turns (r : Response) (s : State) : (s.respond r).turns = s.turns := rfl
@[simp] theorem respond_trace (r : Response) (s : State) : (s.respond r).trace = s.trace := rfl

@[simp] theorem finish_bound (v : Word32) (s : State) : (finish v s).bound = s.bound := rfl
@[simp] theorem finish_pending (v : Word32) (s : State) : (finish v s).pending = s.pending := rfl
@[simp] theorem finish_rsp (v : Word32) (s : State) : (finish v s).rsp = some (.ok v) := rfl
@[simp] theorem finish_inputs (v : Word32) (s : State) : (finish v s).inputs = s.inputs := rfl
@[simp] theorem finish_mem (v : Word32) (s : State) : (finish v s).mem = s.mem := rfl
@[simp] theorem finish_line (v : Word32) (s : State) : (finish v s).line = s.line := rfl
@[simp] theorem finish_turns (v : Word32) (s : State) : (finish v s).turns = s.turns := rfl
@[simp] theorem finish_trace (v : Word32) (s : State) : (finish v s).trace = s.trace := rfl

@[simp] theorem raise_bound (k : ErrorKind) (s : State) : (raise k s).bound = s.bound := rfl
@[simp] theorem raise_pending (k : ErrorKind) (s : State) : (raise k s).pending = s.pending := rfl
@[simp] theorem raise_rsp (k : ErrorKind) (s : State) : (raise k s).rsp = some (.err k) := rfl
@[simp] theorem raise_inputs (k : ErrorKind) (s : State) : (raise k s).inputs = s.inputs := rfl
@[simp] theorem raise_mem (k : ErrorKind) (s : State) : (raise k s).mem = s.mem := rfl
@[simp] theorem raise_line (k : ErrorKind) (s : State) : (raise k s).line = s.line := rfl
@[simp] theorem raise_turns (k : ErrorKind) (s : State) : (raise k s).turns = s.turns := rfl
@[simp] theorem raise_trace (k : ErrorKind) (s : State) : (raise k s).trace = s.trace := rfl

@[simp] theorem await_bound (p : Wait) (s : State) : (await p s).bound = s.bound := rfl
@[simp] theorem await_pending (p : Wait) (s : State) : (await p s).pending = some p := rfl
@[simp] theorem await_rsp (p : Wait) (s : State) : (await p s).rsp = s.rsp := rfl
@[simp] theorem await_inputs (p : Wait) (s : State) : (await p s).inputs = s.inputs := rfl
@[simp] theorem await_mem (p : Wait) (s : State) : (await p s).mem = s.mem := rfl
@[simp] theorem await_line (p : Wait) (s : State) : (await p s).line = s.line := rfl
@[simp] theorem await_turns (p : Wait) (s : State) : (await p s).turns = s.turns := rfl
@[simp] theorem await_trace (p : Wait) (s : State) : (await p s).trace = s.trace := rfl

@[simp] theorem record_bound (t : BusTxn) (s : State) : (s.record t).bound = s.bound := rfl
@[simp] theorem record_pending (t : BusTxn) (s : State) : (s.record t).pending = s.pending := rfl
@[simp] theorem record_rsp (t : BusTxn) (s : State) : (s.record t).rsp = s.rsp := rfl
@[simp] theorem record_inputs (t : BusTxn) (s : State) : (s.record t).inputs = s.inputs := rfl
@[simp] theorem record_mem (t : BusTxn) (s : State) : (s.record t).mem = s.mem := rfl
@[simp] theorem record_line (t : BusTxn) (s : State) : (s.record t).line = s.line := rfl
@[simp] theorem record_turns (t : BusTxn) (s : State) : (s.record t).turns = s.turns := rfl
@[simp] theorem record_trace (t : BusTxn) (s : State) : (s.record t).trace = s.trace ++ [t] := rfl

@[simp] theorem resetBlock_bound (s : State) : (resetBlock s).bound = false := rfl
@[simp] theorem resetBlock_pending (s : State) : (resetBlock s).pending = none := rfl
@[simp] theorem resetBlock_rsp (s : State) : (resetBlock s).rsp = none := rfl
@[simp] theorem resetBlock_inputs (s : State) : (resetBlock s).inputs = s.inputs := rfl
@[simp] theorem resetBlock_mem (s : State) : (resetBlock s).mem = s.mem := rfl
@[simp] theorem resetBlock_line (s : State) : (resetBlock s).line = s.line := rfl
@[simp] theorem resetBlock_turns (s : State) : (resetBlock s).turns = s.turns := rfl
@[simp] theorem resetBlock_trace (s : State) : (resetBlock s).trace = s.trace := rfl

@[simp] theorem presentCommand_bound (c : Word32) (s : State) : (presentCommand c s).bound = s.bound := rfl
@[simp] theorem presentCommand_pending (c : Word32) (s : State) : (presentCommand c s).pending = none := rfl
@[simp] theorem presentCommand_rsp (c : Word32) (s : State) : (presentCommand c s).rsp = s.rsp := rfl
@[simp] theorem presentCommand_inputs (c : Word32) (s : State) : (presentCommand c s).inputs = .command c :: s.inputs := rfl
@[simp] theorem presentCommand_mem (c : Word32) (s : State) : (presentCommand c s).mem = s.mem := rfl
@[simp] theorem presentCommand_line (c : Word32) (s : State) : (presentCommand c s).line = s.line := rfl
@[simp] theorem presentCommand_turns (c : Word32) (s : State) : (presentCommand c s).turns = s.turns := rfl
@[simp] theorem presentCommand_trace (c : Word32) (s : State) : (presentCommand c s).trace = s.trace := rfl

end Sys2Proof.Machine
end

