-- ==== Sys2Proof/Laws/Transport.lean ====
section
/-! SUPPORT. What the outside world, the transport and the two bus primitives can do to the state: everything a later
proof needs of them, so that none unfolds them. -/

namespace Sys2Proof.Machine

/-- The part of the state that belongs to the block and its host port: nothing in the environment touches it. -/
abbrev SameBlock (s t : State) : Prop :=
  t.bound = s.bound ∧ t.pending = s.pending ∧ t.rsp = s.rsp ∧ t.inputs = s.inputs

theorem SameBlock.refl (s : State) : SameBlock s s := ⟨rfl, rfl, rfl, rfl⟩

theorem SameBlock.trans {s t u : State} (h : SameBlock s t) (k : SameBlock t u) : SameBlock s u :=
  ⟨k.1.trans h.1, k.2.1.trans h.2.1, k.2.2.1.trans h.2.2.1, k.2.2.2.trans h.2.2.2⟩

/-- What the memory must satisfy: canonical, and only bytes of the device's registers. -/
abbrev MemoryOk (m : Memory) : Prop := m.wf = true ∧ m.all cellMapped = true

theorem memoryOk_setReg {m : Memory} (h : MemoryOk m) {a : Byte} (ha : mapped a = true) (v : Word) :
    MemoryOk (m.setReg a v) := by
  refine ⟨Memory.wf_setReg h.1 a v, List.all_eq_true.mpr fun c hc => ?_⟩
  have hlt := a.isLt
  have : ∀ k, k = lowKey a ∨ k = lowKey a + 1 → cellMapped (k, c.2) = true := by
    intro k hk
    have h2 : k / 2 = a.toNat := by unfold lowKey at hk; omega
    have h3 : k < 512 := by unfold lowKey at hk; omega
    simp [cellMapped, h2, h3, ha]
  rcases Memory.mem_setReg hc with e | e | e
  · simpa [cellMapped] using this c.1 (.inl e)
  · simpa [cellMapped] using this c.1 (.inr e)
  · exact List.all_eq_true.mp h.2 c e

/-- One act of the outside world: the block, what is scripted and the trace stay; the memory stays well formed. -/
theorem applyChange_frame (c : Change) (s : State) :
    SameBlock s (applyChange c s) ∧ (applyChange c s).turns = s.turns ∧ (applyChange c s).trace = s.trace ∧
      (MemoryOk s.mem → MemoryOk (applyChange c s).mem) := by
  cases c with
  | line l => exact ⟨⟨rfl, rfl, rfl, rfl⟩, rfl, rfl, id⟩
  | reg a v =>
    simp only [applyChange]
    split
    · rename_i ha; exact ⟨⟨rfl, rfl, rfl, rfl⟩, rfl, rfl, fun h => memoryOk_setReg h ha v⟩
    · exact ⟨⟨rfl, rfl, rfl, rfl⟩, rfl, rfl, id⟩

theorem applyChanges_frame (cs : List Change) (s : State) :
    let t := cs.foldl (fun s c => applyChange c s) s
    SameBlock s t ∧ t.turns = s.turns ∧ t.trace = s.trace ∧ (MemoryOk s.mem → MemoryOk t.mem) := by
  induction cs generalizing s with
  | nil => exact ⟨.refl s, rfl, rfl, id⟩
  | cons c cs ih =>
    have h := applyChange_frame c s
    have k := ih (applyChange c s)
    exact ⟨h.1.trans k.1, k.2.1.trans h.2.1, k.2.2.1.trans h.2.2.1, fun hm => k.2.2.2 (h.2.2.2 hm)⟩

/-- The environment's turn at a request: it uses up one scripted turn and touches neither block nor trace. -/
theorem takeTurn_frame (s : State) :
    SameBlock s (takeTurn s).2 ∧ (takeTurn s).2.turns = s.turns.tail ∧ (takeTurn s).2.trace = s.trace ∧
      (MemoryOk s.mem → MemoryOk (takeTurn s).2.mem) := by
  unfold takeTurn
  split
  · rename_i h; exact ⟨.refl s, by simp [h], rfl, id⟩
  · rename_i t rest h
    have k := applyChanges_frame t.changes { s with turns := rest }
    exact ⟨k.1, by simpa [h] using k.2.1, k.2.2.1, k.2.2.2⟩

/-- The command in progress and the trace are no part of what the outside world acts on. -/
theorem applyChange_with (c : Change) (s : State) (p : Option Wait) (tr : List BusTxn) :
    applyChange c { s with pending := p, trace := tr } = { applyChange c s with pending := p, trace := tr } := by
  cases c with
  | line l => rfl
  | reg a v => simp only [applyChange]; split <;> rfl

theorem applyChanges_with (cs : List Change) (s : State) (p : Option Wait) (tr : List BusTxn) :
    cs.foldl (fun s c => applyChange c s) { s with pending := p, trace := tr } =
      { cs.foldl (fun s c => applyChange c s) s with pending := p, trace := tr } := by
  induction cs generalizing s with
  | nil => rfl
  | cons c cs ih => simp only [List.foldl_cons, applyChange_with, ih]

/-- The environment's turn takes no account of the command in progress and of the trace. -/
theorem takeTurn_with (s : State) (p : Option Wait) (tr : List BusTxn) :
    takeTurn { s with pending := p, trace := tr } =
      ((takeTurn s).1, { (takeTurn s).2 with pending := p, trace := tr }) := by
  simp only [takeTurn]
  split
  · rfl
  · rename_i t rest _
    exact congrArg _ (applyChanges_with t.changes { s with turns := rest } p tr)

/-- Nor do several turns. -/
theorem turnsTaken_with (n : Nat) (s : State) (p : Option Wait) (tr : List BusTxn) :
    turnsTaken n { s with pending := p, trace := tr } = { turnsTaken n s with pending := p, trace := tr } := by
  induction n generalizing s with
  | zero => rfl
  | succ n ih => simp only [turnsTaken, takeTurn_with, ih]

/-- What the environment's turns leave of the block (everything), of the script and of the trace. -/
theorem turnsTaken_frame (n : Nat) (s : State) :
    SameBlock s (turnsTaken n s) ∧ (turnsTaken n s).turns = s.turns.drop n ∧ (turnsTaken n s).trace = s.trace := by
  induction n generalizing s with
  | zero => exact ⟨.refl s, rfl, rfl⟩
  | succ n ih =>
    have f := takeTurn_frame s
    have k := ih (takeTurn s).2
    refine ⟨f.1.trans k.1, ?_, k.2.2.trans f.2.2.1⟩
    rw [turnsTaken, k.2.1, f.2.1, List.drop_tail]

/-- With nothing scripted, the environment's turn changes nothing and the line decides. -/
theorem takeTurn_of_no_turns {s : State} (h : s.turns = []) : takeTurn s = (.asLine, s) := by
  simp [takeTurn, h]

/-- With nothing scripted, the environment's turns change nothing. -/
theorem turnsTaken_of_no_turns (n : Nat) {s : State} (h : s.turns = []) : turnsTaken n s = s := by
  induction n with
  | zero => rfl
  | succ n ih => rw [turnsTaken, takeTurn_of_no_turns h, ih]

/-- Recording a transaction before the environment's turns, or after them, is the same. -/
theorem turnsTaken_record (n : Nat) (s : State) (x : BusTxn) :
    turnsTaken n (s.record x) = (turnsTaken n s).record x := by
  have f := turnsTaken_frame n s
  refine (turnsTaken_with n s s.pending (s.trace ++ [x])).trans ?_
  rw [← f.1.2.1, ← f.2.2]
  rfl

/-- The three outcomes of `MemRead(a, 2)` (R31, R143): the environment has had its turn, and an answered transaction has
joined the trace. -/
theorem memRead_cases (a : Byte) (s : State) :
    (∃ v, memRead a s = (.ok v, (takeTurn s).2.record (.read a (some v)))) ∨
      memRead a s = (.fail, (takeTurn s).2.record (.read a none)) ∨ memRead a s = (.silent, (takeTurn s).2) := by
  simp only [memRead]
  split
  · exact .inr (.inr rfl)
  · exact .inr (.inl rfl)
  · exact .inl ⟨_, rfl⟩
  · split
    · exact .inl ⟨_, rfl⟩
    · exact .inr (.inl rfl)

/-- The three outcomes of `MemWrite(a, 2, v)` (R32, R143): only a successful one changes the device, and then only the
register it writes. -/
theorem memWrite_cases (a : Byte) (v : Word) (s : State) :
    (mapped a = true ∧ memWrite a v s =
      (.ok (), { (takeTurn s).2 with
        mem := (takeTurn s).2.mem.setReg a v, trace := (takeTurn s).2.trace ++ [.write a v true] })) ∨
      memWrite a v s = (.fail, (takeTurn s).2.record (.write a v false)) ∨
      memWrite a v s = (.silent, (takeTurn s).2) := by
  simp only [memWrite, carryWrite]
  split
  · exact .inr (.inr rfl)
  · exact .inr (.inl rfl)
  · split
    · rename_i h; exact .inl ⟨h, rfl⟩
    · exact .inr (.inl rfl)
  · split
    · rename_i h; exact .inl ⟨h, rfl⟩
    · exact .inr (.inl rfl)

/-- The reference device with its bus up answers a read with the register's value (R40). -/
theorem memRead_of_up {s : State} (h : s.ReferenceUp) {a : Byte} (ha : mapped a = true) :
    memRead a s = (.ok (s.mem.reg a), s.record (.read a (some (s.mem.reg a)))) := by
  simp [memRead, takeTurn_of_no_turns h.1, h.2, treatment, ha]

/-- The reference device with its bus up stores what is written (R40). -/
theorem memWrite_of_up {s : State} (h : s.ReferenceUp) {a : Byte} (ha : mapped a = true) (v : Word) :
    memWrite a v s = (.ok (), { s with mem := s.mem.setReg a v, trace := s.trace ++ [.write a v true] }) := by
  simp [memWrite, carryWrite, takeTurn_of_no_turns h.1, h.2, treatment, ha, State.record]

/-- With the bus down a read answers `fail` (R40). -/
theorem memRead_of_down {s : State} (h : s.ReferenceDown) (a : Byte) :
    memRead a s = (.fail, s.record (.read a none)) := by
  simp [memRead, takeTurn_of_no_turns h.1, h.2, treatment]

/-- With the bus down a write answers `fail` and changes nothing (R40). -/
theorem memWrite_of_down {s : State} (h : s.ReferenceDown) (a : Byte) (v : Word) :
    memWrite a v s = (.fail, s.record (.write a v false)) := by
  simp [memWrite, takeTurn_of_no_turns h.1, h.2, treatment]

/-- The outcomes of an operation that reads and goes on (R42): with the word read, or with `BusError` and nothing more,
or waiting. -/
theorem readThen_cases (a : Byte) (p : Wait) (k : Word → State → State) (s : State) :
    (∃ v, readThen a p k s = k v ((takeTurn s).2.record (.read a (some v)))) ∨
      readThen a p k s = raise .busError ((takeTurn s).2.record (.read a none)) ∨
      readThen a p k s = await p (takeTurn s).2 := by
  rcases memRead_cases a s with ⟨v, h⟩ | h | h
  · exact .inl ⟨v, by simp [readThen, h]⟩
  · exact .inr (.inl (by simp [readThen, h]))
  · exact .inr (.inr (by simp [readThen, h]))

/-- The outcomes of an operation that writes and goes on (R42). -/
theorem writeThen_cases (a : Byte) (v : Word) (p : Wait) (k : State → State) (s : State) :
    (mapped a = true ∧ writeThen a v p k s =
      k { (takeTurn s).2 with
        mem := (takeTurn s).2.mem.setReg a v, trace := (takeTurn s).2.trace ++ [.write a v true] }) ∨
      writeThen a v p k s = raise .busError ((takeTurn s).2.record (.write a v false)) ∨
      writeThen a v p k s = await p (takeTurn s).2 := by
  rcases memWrite_cases a v s with ⟨ha, h⟩ | h | h
  · exact .inl ⟨ha, by simp [writeThen, h]⟩
  · exact .inr (.inl (by simp [writeThen, h]))
  · exact .inr (.inr (by simp [writeThen, h]))

/-- Reading and going on, with the reference device up. -/
theorem readThen_of_up {s : State} (h : s.ReferenceUp) {a : Byte} (ha : mapped a = true) (p : Wait)
    (k : Word → State → State) :
    readThen a p k s = k (s.mem.reg a) (s.record (.read a (some (s.mem.reg a)))) := by
  simp [readThen, memRead_of_up h ha]

/-- Writing and going on, with the reference device up. -/
theorem writeThen_of_up {s : State} (h : s.ReferenceUp) {a : Byte} (ha : mapped a = true) (v : Word) (p : Wait)
    (k : State → State) :
    writeThen a v p k s = k { s with mem := s.mem.setReg a v, trace := s.trace ++ [.write a v true] } := by
  simp [writeThen, memWrite_of_up h ha]

/-- The gate with `bound = 1` lets the operation through. -/
@[simp] theorem gate_of_bound {s : State} (h : s.bound = true) (k : State → State) : gate k s = k s := by
  simp [gate, h]

/-- The gate with `bound = 0` ends the operation (R99 item 1). -/
@[simp] theorem gate_of_unbound {s : State} (h : s.bound = false) (k : State → State) :
    gate k s = raise .notInitialized s := by
  simp [gate, h]

end Sys2Proof.Machine
end

