-- ==== Sys2Proof/Laws/Operations.lean ====
section
/-! SUPPORT. Everything an operation and a step can do, said once: how an operation ends (`Ends`), that every operation
and every resumed command ends so, and the cases of a step. -/

namespace Sys2Proof.Machine

/-- How an operation takes `s` to `t`: it appends at most `n` legal transactions to the trace, of which only the last
may fail; it takes nothing from the host; it keeps the memory well formed; and it ends in one of three ways. It answers
`OK` (and has set `bound` only if it `mayBind`, by one successful write of 0 to address 0); or it answers a kind of
`errors` without a successful write, every transaction having succeeded unless the kind is `BusError`, and all but the
trace and the response is as the environment's turns left it; or it waits at a request, one that may be in progress if
the operation started as a legal one (`L`). -/
def Ends (L : Prop) (mayBind : Bool) (errors : List ErrorKind) (n : Nat) (s t : State) : Prop :=
  ∃ new, t.trace = s.trace ++ new ∧ new.length ≤ n ∧ new.all BusTxn.legal = true ∧
    (∀ x ∈ new.dropLast, x.succeeded = true) ∧ t.inputs = s.inputs ∧ (MemoryOk s.mem → MemoryOk t.mem) ∧
    ((∃ v, t.rsp = some (.ok v) ∧ t.pending = s.pending ∧ new.all BusTxn.succeeded = true ∧
        (t.bound = s.bound ∨ (mayBind = true ∧ t.bound = true ∧ new = [.write 0 0 true] ∧ v = 0))) ∨
     (∃ k ∈ errors, t = raise k { turnsTaken new.length s with trace := s.trace ++ new } ∧
        (∀ x ∈ new, ∀ a w, x ≠ .write a w true) ∧ (k ≠ .busError → new.all BusTxn.succeeded = true)) ∨
     (∃ p, t.rsp = s.rsp ∧ t.pending = some p ∧ (L → p.legal s.bound = true) ∧ t.bound = s.bound ∧
        new.all BusTxn.succeeded = true))

section
variable {L : Prop} {b : Bool} {E : List ErrorKind} {s : State}

/-- Returning a value ends an operation. -/
theorem ends_finish {n} (v : Word32) (s : State) : Ends L b E n s (finish v s) :=
  ⟨[], by simp, by simp, rfl, by simp, rfl, id, .inl ⟨v, rfl, rfl, rfl, .inl rfl⟩⟩

/-- Raising a kind ends an operation. -/
theorem ends_raise {n k} (hk : k ∈ E) (s : State) : Ends L b E n s (raise k s) :=
  ⟨[], by simp, by simp, rfl, by simp, rfl, id, .inr (.inl ⟨k, hk, by simp [turnsTaken], by simp, fun _ => rfl⟩)⟩

/-- Reading and going on. -/
theorem ends_readThen {n a p k} (ha : a = 0 ∨ a = 4) (hp : L → p.legal s.bound = true)
    (hE : .busError ∈ E) (hk : ∀ v s1, s1.bound = s.bound → Ends L false E n s1 (k v s1)) :
    Ends L b E (n + 1) s (readThen a p k s) := by
  obtain ⟨⟨fb, fp, fr, fi⟩, -, ft, fm⟩ := takeTurn_frame s
  have hl : ∀ got, BusTxn.legal (.read a got) = true := by rcases ha with rfl | rfl <;> intro _ <;> rfl
  rcases readThen_cases a p k s with ⟨v, e⟩ | e | e <;> rw [e]
  · obtain ⟨new, h1, h2, h3, h4, h5, h6, h7⟩ := hk v ((takeTurn s).2.record (.read a (some v))) fb
    have htr : ((takeTurn s).2.record (.read a (some v))).trace ++ new = s.trace ++ (.read a (some v) :: new) := by
      simp [ft]
    refine ⟨.read a (some v) :: new, h1.trans htr, by simpa using h2, by simp [h3, hl], ?_, h5.trans fi,
      fun h => h6 (fm h), ?_⟩
    · intro x hx
      rcases new with _ | ⟨y, ys⟩
      · cases hx
      · rcases List.mem_cons.mp hx with rfl | hx
        · rfl
        · exact h4 x hx
    · rcases h7 with ⟨v', a1, a2, a3, a4⟩ | ⟨k', hk', a1, a4, a5⟩ | ⟨p', a1, a2, a3, a4, a5⟩
      · refine .inl ⟨v', a1, a2.trans fp, by simp [a3, BusTxn.succeeded], .inl ?_⟩
        exact a4.elim (fun a4 => a4.trans fb) (fun a4 => nomatch a4.1)
      · refine .inr (.inl ⟨k', hk', ?_, ?_, fun h => by simp [a5 h, BusTxn.succeeded]⟩)
        · rw [a1, htr, turnsTaken_record, List.length_cons, turnsTaken]; rfl
        · intro x hx a w
          rcases List.mem_cons.mp hx with rfl | hx
          · exact nofun
          · exact a4 x hx a w
      · exact .inr (.inr ⟨p', a1.trans fr, a2, by rw [← fb]; exact a3, a4.trans fb, by simp [a5, BusTxn.succeeded]⟩)
  · exact ⟨[.read a none], by simp [ft], by simp, by simp [hl], by simp, fi, fm,
      .inr (.inl ⟨_, hE, by simp [turnsTaken, State.record, ft], by simp, fun h => absurd rfl h⟩)⟩
  · exact ⟨[], by simp [ft], by simp, rfl, by simp, fi, fm, .inr (.inr ⟨p, fr, rfl, hp, fb, rfl⟩)⟩

/-- Writing address 0 and answering. -/
theorem ends_writeThen {p v k} (hp : L → p.legal s.bound = true) (hE : .busError ∈ E)
    (hk : ∀ s1, (k s1).trace = s1.trace ∧ (k s1).inputs = s1.inputs ∧ (k s1).mem = s1.mem ∧
      (k s1).pending = s1.pending ∧ (k s1).rsp = some (.ok 0) ∧
      ((k s1).bound = s1.bound ∨ (b = true ∧ v = 0 ∧ (k s1).bound = true))) :
    Ends L b E 1 s (writeThen 0 v p k s) := by
  obtain ⟨⟨fb, fp, fr, fi⟩, -, ft, fm⟩ := takeTurn_frame s
  rcases writeThen_cases 0 v p k s with ⟨hm, e⟩ | e | e <;> rw [e]
  · obtain ⟨h1, h2, h3, h4, h5, h6⟩ := hk { (takeTurn s).2 with
        mem := (takeTurn s).2.mem.setReg 0 v, trace := (takeTurn s).2.trace ++ [.write 0 v true] }
    refine ⟨[.write 0 v true], h1.trans (congrArg (· ++ [_]) ft), by simp, rfl, by simp, h2.trans fi, fun h => ?_,
      .inl ⟨0, h5, h4.trans fp, rfl, ?_⟩⟩
    · rw [h3]; exact memoryOk_setReg (fm h) hm v
    · rcases h6 with h6 | ⟨h6, rfl, h8⟩
      · exact .inl (h6.trans fb)
      · exact .inr ⟨h6, h8, rfl, rfl⟩
  · exact ⟨[.write 0 v false], by simp [ft], by simp, rfl, by simp, fi, fm,
      .inr (.inl ⟨_, hE, by simp [turnsTaken, State.record, ft], by simp, fun h => absurd rfl h⟩)⟩
  · exact ⟨[], by simp [ft], by simp, rfl, by simp, fi, fm, .inr (.inr ⟨p, fr, rfl, hp, fb, rfl⟩)⟩

/-- A bound on the transactions may be weakened. -/
theorem Ends.mono {n m} {t : State} (h : Ends L b E n s t) (hm : n ≤ m) : Ends L b E m s t := by
  obtain ⟨new, h1, h2, r⟩ := h
  exact ⟨new, h1, le_trans h2 hm, r⟩

theorem ends_readConfig (hb : L → s.bound = true) (hE : .busError ∈ E) : Ends L b E 1 s (readConfig s) :=
  ends_readThen (.inl rfl) hb hE (fun _ _ _ => ends_finish _ _)

theorem ends_readField (f : CfgField) (hb : L → s.bound = true) (hE : .busError ∈ E) :
    Ends L b E 1 s (readField f s) :=
  ends_readThen (.inl rfl) hb hE (fun _ _ _ => ends_finish _ _)

theorem ends_writeConfig (w : Word) (hb : L → s.bound = true) (hE : .busError ∈ E) :
    Ends L b E 1 s (writeConfig w s) :=
  ends_writeThen hb hE (fun _ => ⟨rfl, rfl, rfl, rfl, rfl, .inl rfl⟩)

theorem ends_modifyField {f : CfgField} {v : Byte} (h : L → s.bound = true ∧ v.toNat ≤ setMax f)
    (hE : .busError ∈ E) : Ends L b E 2 s (modifyField f v s) :=
  ends_readThen (.inl rfl) (fun l => by simp [Wait.legal, h l]) hE
    (fun _ _ h1 => ends_writeConfig _ (fun l => h1.trans (h l).1) hE)

theorem ends_writeDefault (hE : .busError ∈ E) : Ends L true E 1 s (writeDefault s) :=
  ends_writeThen (fun _ => rfl) hE (fun _ => ⟨rfl, rfl, rfl, rfl, rfl, .inr ⟨rfl, by simp, rfl⟩⟩)

theorem ends_withLuxRes {n k c u} (hk : k ∈ E) : Ends L b E n s (withLuxRes k c u s) := by
  cases c with
  | none => exact ends_raise hk s
  | some c => exact ends_finish _ s

theorem ends_insertField {n} (f : CfgField) (v : Byte) (w : Word) (hE : .invalidParameter ∈ E) :
    Ends L b E n s (insertField f v w s) := by
  unfold insertField
  split
  exacts [ends_finish _ s, ends_raise hE s]

/-- A logical index read from the table is one of six. -/
theorem itDec_lt (p : Byte) (x : BitVec 3) (h : itDec p = some x) : x.toNat < 6 := by
  revert p x; decide

/-- A gain field is one of four. -/
theorem gain_lt (c : Word) : (BitVec.setWidth 4 (fieldExtract .gain c)).toNat < 4 := by
  have := extract_lt .gain c
  simp [params] at *
  omega

theorem ends_readCount {g : BitVec 4} {t : Option (BitVec 3)}
    (h : L → (Wait.luxCount g t).legal s.bound = true) (hE : .busError ∈ E) (hD : .invalidDeviceState ∈ E) :
    Ends L b E 1 s (readCount g t s) :=
  ends_readThen (.inr rfl) h hE (fun _ _ _ => ends_withLuxRes hD)

theorem ends_readTime {g : BitVec 4} (h : L → s.bound = true ∧ g.toNat < 4) (hE : .busError ∈ E)
    (hD : .invalidDeviceState ∈ E) : Ends L b E 2 s (readTime g s) := by
  refine ends_readThen (.inl rfl) (fun l => by simp [Wait.legal, h l]) hE
    (fun v s1 h1 => ends_readCount (fun l => ?_) hE hD)
  rcases ht : itDec ((fieldExtract .it v).setWidth 8) with _ | x
  · simp [Wait.legal, h1, h l]
  · simp [Wait.legal, h1, h l, itDec_lt _ x ht]

theorem ends_readGain (hb : L → s.bound = true) (hE : .busError ∈ E) (hD : .invalidDeviceState ∈ E) :
    Ends L b E 3 s (readGain s) :=
  ends_readThen (.inl rfl) hb hE (fun v _ h1 => ends_readTime (fun l => ⟨h1.trans (hb l), gain_lt v⟩) hE hD)

/-- The gate on `bound` (R99 item 1). -/
theorem ends_gate {n k} (hN : .notInitialized ∈ E) (h : s.bound = true → Ends L b E n s (k s)) :
    Ends L b E n s (gate k s) := by
  rcases hb : s.bound with _ | _
  · rw [gate_of_unbound hb]; exact ends_raise hN s
  · rw [gate_of_bound hb]; exact h hb

theorem ends_getter (f : CfgField) (hN : .notInitialized ∈ E) (hE : .busError ∈ E) :
    Ends L b E 3 s (gate (readField f) s) :=
  ends_gate hN (fun hb => (ends_readField f (fun _ => hb) hE).mono (by decide))

theorem ends_setter (f : CfgField) (v : Byte) (hN : .notInitialized ∈ E) (hE : .busError ∈ E)
    (hP : .invalidParameter ∈ E) : Ends L b E 3 s (setField f v s) := by
  refine ends_gate hN (fun hb => ?_)
  split
  · exact ends_raise hP s
  · exact (ends_modifyField (fun _ => ⟨hb, by omega⟩) hE).mono (by decide)

end

/-- The instruction is an INIT with a bus supplied: the one that may set `bound`. -/
def isInit : Instr → Bool
  | .init p => busSupplied p
  | _ => false

/-- Every instruction answers a next state, and ends as its row of the status table says (R125). -/
theorem exec_ends (i : Instr) (s : State) : ∃ t, exec i s = .next t ∧ Ends True (isInit i) (allowedErrors i) 3 s t := by
  have m1 {a : ErrorKind} {l} : a ∈ a :: l := .head l
  have m2 {a b : ErrorKind} {l} : b ∈ a :: b :: l := .tail a (.head l)
  have m3 {a b c : ErrorKind} {l} : c ∈ a :: b :: c :: l := .tail a (.tail b (.head l))
  cases i
  case isd v w => exact ⟨_, rfl, ends_insertField .sd v w m1⟩
  case iie v w => exact ⟨_, rfl, ends_insertField .ie v w m1⟩
  case ipers v w => exact ⟨_, rfl, ends_insertField .pers v w m1⟩
  case iit v w => exact ⟨_, rfl, ends_insertField .it v w m1⟩
  case igain v w => exact ⟨_, rfl, ends_insertField .gain v w m1⟩
  case luxres g t => exact ⟨_, rfl, ends_withLuxRes m1⟩
  case luxmul g t raw => exact ⟨_, rfl, ends_withLuxRes m1⟩
  case rdcfg => exact ⟨_, rfl, ends_gate m1 (fun hb => (ends_readConfig (fun _ => hb) m2).mono (by decide))⟩
  case getsd => exact ⟨_, rfl, ends_getter .sd m1 m2⟩
  case getie => exact ⟨_, rfl, ends_getter .ie m1 m2⟩
  case getpers => exact ⟨_, rfl, ends_getter .pers m1 m2⟩
  case getit => exact ⟨_, rfl, ends_getter .it m1 m2⟩
  case getgain => exact ⟨_, rfl, ends_getter .gain m1 m2⟩
  case setsd v => exact ⟨_, rfl, ends_setter .sd v m1 m2 m3⟩
  case setie v => exact ⟨_, rfl, ends_setter .ie v m1 m2 m3⟩
  case setpers v => exact ⟨_, rfl, ends_setter .pers v m1 m2 m3⟩
  case setit l => exact ⟨_, rfl, ends_setter .it l m1 m2 m3⟩
  case setgain v => exact ⟨_, rfl, ends_setter .gain v m1 m2 m3⟩
  case rdlux => exact ⟨_, rfl, ends_gate m1 (fun hb => ends_readGain (fun _ => hb) m2 m3)⟩
  case init p =>
    refine ⟨_, rfl, ?_⟩
    rcases h : busSupplied p with _ | _
    · exact ends_raise m1 s
    · simp only [if_true, isInit, h]
      exact (ends_writeDefault m2).mono (by decide)
  all_goals exact ⟨_, rfl, ends_finish _ s⟩

/-- Every command in progress goes on to an end, with the transactions and the error kinds it has left. -/
theorem resume_ends (p : Wait) (s : State) :
    Ends (p.legal s.bound = true) (p == .initWrite) p.errors p.transactionsLeft s (resumeAt p s) := by
  have m1 {a : ErrorKind} {l} : a ∈ a :: l := .head l
  have m2 {a b : ErrorKind} {l} : b ∈ a :: b :: l := .tail a (.head l)
  cases p <;> simp only [resumeAt, Wait.errors, Wait.transactionsLeft]
  case rdcfg => exact ends_readConfig id m1
  case get => exact ends_readField _ id m1
  case setRead => exact ends_modifyField (by simp [Wait.legal]) m1
  case setWrite => exact ends_writeConfig _ id m1
  case initWrite => exact ends_writeDefault m1
  case luxGain => exact ends_readGain id m1 m2
  case luxTime => exact ends_readTime (by simp [Wait.legal]) m1 m2
  case luxCount => exact ends_readCount id m1 m2

/-- The trace grows, and the first transaction added, if any, is `r`: an address, and the word of a write. -/
def Requests (r : Byte × Option Word) (s t : State) : Prop :=
  ∃ new, t.trace = s.trace ++ new ∧ ∀ x, new.head? = some x → (x.address, x.written) = r

/-- What reads and goes on requests that read first. -/
theorem requests_readThen {a p k} {s : State} (hk : ∀ v s1, ∃ new, (k v s1).trace = s1.trace ++ new) :
    Requests (a, none) s (readThen a p k s) := by
  have ft := (takeTurn_frame s).2.2.1
  rcases readThen_cases a p k s with ⟨v, e⟩ | e | e <;> rw [e]
  · obtain ⟨new, h⟩ := hk v ((takeTurn s).2.record (.read a (some v)))
    exact ⟨.read a (some v) :: new, by simp [h, ft], by simp [BusTxn.address, BusTxn.written]⟩
  · exact ⟨[.read a none], by simp [ft], by simp [BusTxn.address, BusTxn.written]⟩
  · exact ⟨[], by simp [ft], by simp⟩

/-- What writes and answers requests that write. -/
theorem requests_writeThen {a v p k} {s : State} (hk : ∀ s1, (k s1).trace = s1.trace) :
    Requests (a, some v) s (writeThen a v p k s) := by
  have ft := (takeTurn_frame s).2.2.1
  rcases writeThen_cases a v p k s with ⟨_, e⟩ | e | e <;> rw [e]
  · exact ⟨[.write a v true], by simp [hk, ft], by simp [BusTxn.address, BusTxn.written]⟩
  · exact ⟨[.write a v false], by simp [ft], by simp [BusTxn.address, BusTxn.written]⟩
  · exact ⟨[], by simp [ft], by simp⟩

/-- A command in progress makes the transaction it has requested first (R34, R41). -/
theorem resume_requests (p : Wait) (s : State) : Requests p.request s (resumeAt p s) := by
  have grows {L b E n} {s t : State} (h : Ends L b E n s t) : ∃ new, t.trace = s.trace ++ new := ⟨_, h.choose_spec.1⟩
  have same (s : State) : ∃ new, s.trace = s.trace ++ new := ⟨[], by simp⟩
  have mB {l} : ErrorKind.busError ∈ .busError :: l := .head l
  have mD : ErrorKind.invalidDeviceState ∈ [.busError, .invalidDeviceState] := .tail _ (.head _)
  cases p
  case rdcfg => exact requests_readThen (fun _ s1 => same s1)
  case get => exact requests_readThen (fun _ s1 => same s1)
  case setRead =>
    exact requests_readThen (fun _ s1 => grows (ends_writeConfig (L := False) (b := false) (E := [.busError]) _ nofun mB))
  case setWrite => exact requests_writeThen (fun _ => rfl)
  case initWrite => exact requests_writeThen (fun _ => rfl)
  case luxGain => exact requests_readThen (fun _ s1 => grows (ends_readTime (L := False) (b := false) nofun mB mD))
  case luxTime => exact requests_readThen (fun _ s1 => grows (ends_readCount (L := False) (b := false) nofun mB mD))
  case luxCount =>
    exact requests_readThen (fun _ s1 => grows (ends_withLuxRes (L := False) (b := false) (n := 0) mD))

/-- The getters are one operation over their field (R101). -/
theorem exec_getter (f : CfgField) (s : State) : exec (getterOf f) s = .next (gate (readField f) s) := by
  cases f <;> rfl

/-- The setters are one operation over their field (R107). -/
theorem exec_setter (f : CfgField) (v : Byte) (s : State) : exec (setterOf f v) s = .next (setField f v s) := by
  cases f <;> rfl

/-- A bound setter with a legal operand goes to the bus (R108). -/
theorem setField_of_legal {f : CfgField} {v : Byte} {s : State} (h : v.toNat ≤ setMax f) (hb : s.bound = true) :
    setField f v s = modifyField f v s := by
  simp [setField, hb, not_lt.mpr h]

/-- The five kinds of step that answer a next state. -/
theorem step_cases {s t : State} (h : step s = .next t) :
    (s.inputs = [] ∧ s.pending = none ∧ t = s) ∨
    (∃ c rest, s.inputs = .world c :: rest ∧ t = applyChange c { s with inputs := rest }) ∨
    (∃ rest, s.inputs = .reset :: rest ∧ s.pending = none ∧ t = resetBlock { s with inputs := rest }) ∨
    (∃ c rest, s.inputs = .command c :: rest ∧ s.pending = none ∧
      ((∃ i, decode c = .ok i ∧ exec i { s with inputs := rest, rsp := none } = .next t) ∨
       (∃ r, decode c = .error r ∧ t = illegalCommand { s with inputs := rest, rsp := none }))) ∨
    (∃ p, s.pending = some p ∧ (s.inputs = [] ∨ ∃ c rest, s.inputs = .command c :: rest) ∧
      t = resumeAt p { s with pending := none }) := by
  simp only [step, nextEvent] at h
  rcases hi : s.inputs with _ | ⟨i, rest⟩ <;> rcases hp : s.pending with _ | p
  · simp only [hi, hp, Host.Outcome.next.injEq] at h; exact .inl ⟨rfl, rfl, h.symm⟩
  · simp only [hi, hp, Host.Outcome.next.injEq] at h
    exact .inr (.inr (.inr (.inr ⟨p, rfl, .inl rfl, by rw [← h, ← hi]⟩)))
  · rcases i with c | _ | c
    · simp only [hi, hp] at h
      refine .inr (.inr (.inr (.inl ⟨c, rest, rfl, rfl, ?_⟩)))
      rcases hd : decode c with r | i
      · simp only [hd, Host.Outcome.next.injEq] at h; exact .inr ⟨r, rfl, by rw [← h]⟩
      · simp only [hd] at h; exact .inl ⟨i, rfl, by rw [← h]⟩
    · simp only [hi, hp, Host.Outcome.next.injEq] at h; exact .inr (.inr (.inl ⟨rest, rfl, rfl, by rw [← h]⟩))
    · simp only [hi, hp, Host.Outcome.next.injEq] at h; exact .inr (.inl ⟨c, rest, rfl, by rw [← h]⟩)
  · rcases i with c | _ | c
    · simp only [hi, hp, Host.Outcome.next.injEq] at h
      exact .inr (.inr (.inr (.inr ⟨p, rfl, .inr ⟨c, rest, rfl⟩, by rw [← h, ← hi]⟩)))
    · simp only [hi, hp] at h; cases h
    · simp only [hi, hp, Host.Outcome.next.injEq] at h; exact .inr (.inl ⟨c, rest, rfl, by rw [← h]⟩)

end Sys2Proof.Machine
end

