-- ==== Sys2Proof/Laws/Params.lean ====
section
/-! SUPPORT. The parameter record (`00_scope.md` R6) and the types and tables of the model agree. -/

namespace Sys2Proof.Machine

/-- `CFG_WIDTH` and `REG_WIDTH` are the width of the type of a configuration word and of a device register. -/
theorem word_width : Word = BitVec params.cfgWidth ∧ Word = BitVec params.regWidth := ⟨rfl, rfl⟩

/-- `ADDR_WIDTH` is the width of the type of an address. -/
theorem byte_width : Byte = BitVec params.addrWidth := rfl

/-- `CMD_WIDTH` and `RES_WIDTH` are the width of the type of a command word and of a result. -/
theorem word32_width : Word32 = BitVec params.cmdWidth ∧ Word32 = BitVec params.resWidth := ⟨rfl, rfl⟩

/-- A binary32 pattern fills a result: sign, exponent and fraction. -/
theorem float_width : 1 + params.float.exponentBits + params.float.fractionBits = params.resWidth := rfl

/-- A transaction moves one whole register (R33). -/
theorem bus_bytes_width : 8 * params.busBytes.toNat = params.regWidth := rfl

/-- The integration-time table has `N_IT` rows. -/
theorem itTable_length : itTable.length = params.nIt := rfl

@[simp] theorem params_addrCfg : params.addrCfg = 0 := rfl
@[simp] theorem params_addrAls : params.addrAls = 4 := rfl

end Sys2Proof.Machine
end

