-- ==== Sys2Proof/Laws/PerInstr.lean ====
section
/-! SUPPORT. Facts about every instruction as syntax, one lemma per constructor. -/

namespace Sys2Proof.Laws.OpcodeListed

/-- The decoder reads from the instruction's command word an instruction with the same opcode: no opcode of the encoder
falls through to a neighbour or to a rejection. -/
def Statement (i : Instr) : Prop := ∃ j, decode (encode i) = .ok j ∧ j.opcode = i.opcode

theorem xsd (w : Word) : Statement (.xsd w) := by
  simp [Statement, decode, Instr.opcode]
theorem xie (w : Word) : Statement (.xie w) := by
  simp [Statement, decode, Instr.opcode]
theorem xpers (w : Word) : Statement (.xpers w) := by
  simp [Statement, decode, Instr.opcode]
theorem xit (w : Word) : Statement (.xit w) := by
  simp [Statement, decode, Instr.opcode]
theorem xgain (w : Word) : Statement (.xgain w) := by
  simp [Statement, decode, Instr.opcode]
theorem cfgunpk (w : Word) : Statement (.cfgunpk w) := by
  simp [Statement, decode, Instr.opcode]
theorem isd (v : Byte) (w : Word) : Statement (.isd v w) := by
  simp [Statement, decode, Instr.opcode]
theorem iie (v : Byte) (w : Word) : Statement (.iie v w) := by
  simp [Statement, decode, Instr.opcode]
theorem ipers (v : Byte) (w : Word) : Statement (.ipers v w) := by
  simp [Statement, decode, Instr.opcode]
theorem iit (v : Byte) (w : Word) : Statement (.iit v w) := by
  simp [Statement, decode, Instr.opcode]
theorem igain (v : Byte) (w : Word) : Statement (.igain v w) := by
  simp [Statement, decode, Instr.opcode]
theorem cfgpack (f : Word) : Statement (.cfgpack f) := by
  simp [Statement, decode, Instr.opcode]
theorem cfgdef : Statement .cfgdef := by
  simp [Statement, decode, Instr.opcode]
theorem itenc (l : Byte) : Statement (.itenc l) := by
  simp [Statement, decode, Instr.opcode]
theorem itdec (p : Byte) : Statement (.itdec p) := by
  simp [Statement, decode, Instr.opcode]
theorem luxres (g : BitVec 4) (t : BitVec 4) : Statement (.luxres g t) := by
  simp [Statement, decode, Instr.opcode]
theorem luxmul (g : BitVec 4) (t : BitVec 4) (raw : Word) : Statement (.luxmul g t raw) := by
  simp [Statement, decode, Instr.opcode]
theorem rdcfg : Statement .rdcfg := by
  simp [Statement, decode, Instr.opcode]
theorem getsd : Statement .getsd := by
  simp [Statement, decode, Instr.opcode]
theorem getie : Statement .getie := by
  simp [Statement, decode, Instr.opcode]
theorem getpers : Statement .getpers := by
  simp [Statement, decode, Instr.opcode]
theorem getit : Statement .getit := by
  simp [Statement, decode, Instr.opcode]
theorem getgain : Statement .getgain := by
  simp [Statement, decode, Instr.opcode]
theorem setsd (v : Byte) : Statement (.setsd v) := by
  simp [Statement, decode, Instr.opcode]
theorem setie (v : Byte) : Statement (.setie v) := by
  simp [Statement, decode, Instr.opcode]
theorem setpers (v : Byte) : Statement (.setpers v) := by
  simp [Statement, decode, Instr.opcode]
theorem setit (l : Byte) : Statement (.setit l) := by
  simp [Statement, decode, Instr.opcode]
theorem setgain (v : Byte) : Statement (.setgain v) := by
  simp [Statement, decode, Instr.opcode]
theorem init (p : Byte) : Statement (.init p) := by
  simp [Statement, decode, Instr.opcode]
theorem rdlux : Statement .rdlux := by
  simp [Statement, decode, Instr.opcode]

end Sys2Proof.Laws.OpcodeListed
end

