-- ==== Sys2Proof/Tests/Slice0.lean ====
section
/-! SUPPORT. The model's own tests: the WellFormed smoke, one command word per operation written bit by bit from
`30_encoding.md` R47 and R53, single steps with the results of `95_test_vectors.md`, and for every statement with
hypotheses a witness that meets them. -/

namespace Sys2Proof.Tests

open Sys2Proof.Machine

/-! ## WellFormed: each check refuses an ill-formed term -/

/-- R57: INIT's operand is 0 or 1. -/
theorem test_wellFormed_init : (Instr.init 2).wellFormed = false ∧ (Instr.init 1).wellFormed = true := by decide

/-- R51: a compact field record has 10 bits. -/
theorem test_wellFormed_cfgpack :
    (Instr.cfgpack 0x400).wellFormed = false ∧ (Instr.cfgpack 0x3FF).wellFormed = true := by decide

/-! ## Decoding: op, v, w written out -/

theorem test_decode_codec_extract :
    decode (0b00000001#8 ++ 0b00000000#8 ++ 0b0001100011110011#16) = .ok (.xsd 0x18F3) ∧
    decode (0b00000010#8 ++ 0b00000000#8 ++ 0b0001100011110011#16) = .ok (.xie 0x18F3) ∧
    decode (0b00000011#8 ++ 0b00000000#8 ++ 0b1010010110100101#16) = .ok (.xpers 0xA5A5) ∧
    decode (0b00000100#8 ++ 0b11111111#8 ++ 0b1111111111111111#16) = .ok (.xit 0xFFFF) ∧
    decode (0b00000101#8 ++ 0b00000000#8 ++ 0b0000100010100000#16) = .ok (.xgain 0x08A0) ∧
    decode (0b00000110#8 ++ 0b00000000#8 ++ 0b0101101001011010#16) = .ok (.cfgunpk 0x5A5A) := by decide

theorem test_decode_codec_insert :
    decode (0b00010001#8 ++ 0b00000001#8 ++ 0b1110010000001100#16) = .ok (.isd 1 0xE40C) ∧
    decode (0b00010010#8 ++ 0b00000010#8 ++ 0b0000000000000000#16) = .ok (.iie 2 0) ∧
    decode (0b00010011#8 ++ 0b00000011#8 ++ 0b0001101111000011#16) = .ok (.ipers 3 0x1BC3) ∧
    decode (0b00010100#8 ++ 0b00011100#8 ++ 0b0000000000000000#16) = .ok (.iit 28 0) ∧
    decode (0b00010101#8 ++ 0b10000011#8 ++ 0b0000000000000000#16) = .ok (.igain 131 0) ∧
    decode (0b00010110#8 ++ 0b11111111#8 ++ 0b1111111100111111#16) = .ok (.cfgpack 0x33F) ∧
    decode (0b00010111#8 ++ 0b11111111#8 ++ 0b1111111111111111#16) = .ok .cfgdef := by decide

theorem test_decode_it :
    decode (0b00100000#8 ++ 0b00000010#8 ++ 0b0000000000000001#16) = .ok (.itenc 2) ∧
    decode (0b00100001#8 ++ 0b00011100#8 ++ 0b0000000000000000#16) = .ok (.itdec 0x1C) := by decide

theorem test_decode_lux :
    decode (0b00110000#8 ++ 0b00100101#8 ++ 0b0000000000000000#16) = .ok (.luxres 2 5) ∧
    decode (0b00110001#8 ++ 0b00000010#8 ++ 0b0000001111101000#16) = .ok (.luxmul 0 2 1000) := by decide

theorem test_decode_getters :
    decode (0b01000000#8 ++ 0b10101011#8 ++ 0b1100110111101111#16) = .ok .rdcfg ∧
    decode (0b01000001#8 ++ 0b11111111#8 ++ 0b1111111111111111#16) = .ok .getsd ∧
    decode (0b01000010#8 ++ 0b00000000#8 ++ 0b0000000000000000#16) = .ok .getie ∧
    decode (0b01000011#8 ++ 0b00000000#8 ++ 0b0000000000000000#16) = .ok .getpers ∧
    decode (0b01000100#8 ++ 0b00000000#8 ++ 0b0000000000000000#16) = .ok .getit ∧
    decode (0b01000101#8 ++ 0b00000000#8 ++ 0b0000000000000000#16) = .ok .getgain := by decide

theorem test_decode_setters :
    decode (0b01010001#8 ++ 0b00000001#8 ++ 0b0000000000000000#16) = .ok (.setsd 1) ∧
    decode (0b01010010#8 ++ 0b11111111#8 ++ 0b0000000000000000#16) = .ok (.setie 255) ∧
    decode (0b01010011#8 ++ 0b00000001#8 ++ 0b1111111111111111#16) = .ok (.setpers 1) ∧
    decode (0b01010100#8 ++ 0b00001100#8 ++ 0b0000000000000000#16) = .ok (.setit 12) ∧
    decode (0b01010101#8 ++ 0b00000011#8 ++ 0b0000000000000000#16) = .ok (.setgain 3) := by decide

theorem test_decode_init_rdlux :
    decode (0b01100000#8 ++ 0b11111110#8 ++ 0b0000000000000000#16) = .ok (.init 0) ∧
    decode (0b01100000#8 ++ 0b11111111#8 ++ 0b1111111111111111#16) = .ok (.init 1) ∧
    decode (0b01110000#8 ++ 0b11111111#8 ++ 0b1111111111111111#16) = .ok .rdlux := by decide

/-- `95_test_vectors.md` section 8: the illegal words. -/
theorem test_decode_illegal :
    ([0x00000000, 0xFFFFFFFF, 0x07000000, 0x10010000, 0x18000000, 0x22000000, 0x32000000, 0x46000000, 0x50010000, 0x56010000, 0x61010000, 0x71000000, 0x80000000] : List Word32).all
      (fun c => decode c == .error (.illegalOpcode (opOf c))) = true := by decide

/-- The bits of the opcode table's rows, read by the table's numbering. -/
theorem test_decodeTableWord :
    decodeTableWord 32 0x60010000 = some (.init 1) ∧ decodeTableWord 32 0x61000000 = none := by decide

/-! ## Single steps: the vectors of `95_test_vectors.md` -/

/-- The reference device (R40) with these contents behind a block with this `bound`, its bus up. -/
def device (bound : Bool) (cfg als : Word) : State :=
  { State.reset with bound := bound, mem := (Memory.setReg [] 0 cfg).setReg 4 als }

/-- The reference device with its bus down. -/
def deadDevice (bound : Bool) (cfg : Word) : State := { device bound cfg 0 with line := .down }

/-- The device whose `k`-th transaction from now on fails. -/
def failing (k : Nat) (cfg als : Word) : State :=
  { device true cfg als with turns := List.replicate (k - 1) ⟨[], .asLine⟩ ++ [⟨[], .fail⟩] }

/-- What the host and the bus see of one step that accepts a command word: the response, the trace, `bound`, and the
device's configuration register. -/
def outcome (s : State) (c : Word32) : Option (Option Response × List BusTxn × Bool × Word) :=
  match step (s.withFetchWord 32 c.toNat) with
  | .next t => some (t.rsp, t.trace, t.bound, t.mem.reg 0)
  | .fault _ => none
  | .refused _ => none

theorem test_xsd : outcome (device false 0x18F3 0) 0x0100E40C =
    some (some (.ok 0x0), [], false, 0x18F3) := by decide

theorem test_xie : outcome (device false 0x18F3 0) 0x02005A5A =
    some (some (.ok 0x1), [], false, 0x18F3) := by decide

theorem test_xpers : outcome (device false 0x18F3 0) 0x0300A5A5 =
    some (some (.ok 0x2), [], false, 0x18F3) := by decide

theorem test_xit : outcome (device false 0x18F3 0) 0x0400A5A5 =
    some (some (.ok 0x6), [], false, 0x18F3) := by decide

theorem test_xgain : outcome (device false 0x18F3 0) 0x05005A5A =
    some (some (.ok 0x3), [], false, 0x18F3) := by decide

theorem test_cfgunpk : outcome (device false 0x18F3 0) 0x06005A5A =
    some (some (.ok 0x396), [], false, 0x18F3) := by decide

theorem test_isd : outcome (device false 0x18F3 0) 0x1101E40C =
    some (some (.ok 0xE40D), [], false, 0x18F3) := by decide

theorem test_isd_wide : outcome (device false 0x18F3 0) 0x11FFFFFF =
    some (some (.err .invalidParameter), [], false, 0x18F3) := by decide

theorem test_iie : outcome (device false 0x18F3 0) 0x12010001 =
    some (some (.ok 0x3), [], false, 0x18F3) := by decide

theorem test_iie_wide : outcome (device false 0x18F3 0) 0x12020000 =
    some (some (.err .invalidParameter), [], false, 0x18F3) := by decide

theorem test_ipers : outcome (device false 0x18F3 0) 0x13031BC3 =
    some (some (.ok 0x1BF3), [], false, 0x18F3) := by decide

theorem test_ipers_wide : outcome (device false 0x18F3 0) 0x13040000 =
    some (some (.err .invalidParameter), [], false, 0x18F3) := by decide

theorem test_iit : outcome (device false 0x18F3 0) 0x140FE40C =
    some (some (.ok 0xE7CC), [], false, 0x18F3) := by decide

theorem test_iit_wide : outcome (device false 0x18F3 0) 0x141C0000 =
    some (some (.err .invalidParameter), [], false, 0x18F3) := by decide

theorem test_igain : outcome (device false 0x18F3 0) 0x1503E7FF =
    some (some (.ok 0xFFFF), [], false, 0x18F3) := by decide

theorem test_igain_wide : outcome (device false 0x18F3 0) 0x15830000 =
    some (some (.err .invalidParameter), [], false, 0x18F3) := by decide

theorem test_cfgpack : outcome (device false 0x18F3 0) 0x16FFFF3F =
    some (some (.ok 0x18F3), [], false, 0x18F3) := by decide

theorem test_cfgpack_fields : outcome (device false 0x18F3 0) 0x160002AA =
    some (some (.ok 0x12A2), [], false, 0x18F3) := by decide

theorem test_cfgdef : outcome (device false 0x18F3 0) 0x17FFFFFF =
    some (some (.ok 0x0), [], false, 0x18F3) := by decide

theorem test_itenc : outcome (device false 0x18F3 0) 0x20000000 =
    some (some (.ok 0xC), [], false, 0x18F3) := by decide

theorem test_itenc_sentinel : outcome (device false 0x18F3 0) 0x20800000 =
    some (some (.ok 0xF), [], false, 0x18F3) := by decide

theorem test_itdec : outcome (device false 0x18F3 0) 0x210C0000 =
    some (some (.ok 0x0), [], false, 0x18F3) := by decide

theorem test_itdec_eight_bits : outcome (device false 0x18F3 0) 0x211C0000 =
    some (some (.ok 0x6), [], false, 0x18F3) := by decide

theorem test_luxres : outcome (device false 0x18F3 0) 0x30350000 =
    some (some (.ok 0x3CEBEDFA), [], false, 0x18F3) := by decide

theorem test_luxres_outside : outcome (device false 0x18F3 0) 0x30360000 =
    some (some (.err .invalidParameter), [], false, 0x18F3) := by decide

theorem test_luxmul_rounds_up : outcome (device false 0x18F3 0) 0x31150003 =
    some (some (.ok 0x3C30F27C), [], false, 0x18F3) := by decide

theorem test_luxmul_largest : outcome (device false 0x18F3 0) 0x3120FFFF =
    some (some (.ok 0x47EBED0E), [], false, 0x18F3) := by decide

theorem test_rdcfg : outcome (device true 0xE40C 0) 0x40ABCDEF =
    some (some (.ok 0xE40C), [.read 0 (some 0xE40C)], true, 0xE40C) := by decide

theorem test_rdcfg_bus_down : outcome (deadDevice true 0x18F3) 0x40000000 =
    some (some (.err .busError), [.read 0 none], true, 0x18F3) := by decide

theorem test_getsd : outcome (device true 0x18F3 0) 0x41FFFFFF =
    some (some (.ok 0x1), [.read 0 (some 0x18F3)], true, 0x18F3) := by decide

theorem test_getie : outcome (device true 0x18F3 0) 0x42000000 =
    some (some (.ok 0x1), [.read 0 (some 0x18F3)], true, 0x18F3) := by decide

theorem test_getpers : outcome (device true 0x18F3 0) 0x43000000 =
    some (some (.ok 0x3), [.read 0 (some 0x18F3)], true, 0x18F3) := by decide

theorem test_getit : outcome (device true 0x0300 0) 0x44000000 =
    some (some (.ok 0x0), [.read 0 (some 0x0300)], true, 0x0300) := by decide

theorem test_getit_sentinel : outcome (device true 0x0100 0) 0x44000000 =
    some (some (.ok 0x6), [.read 0 (some 0x0100)], true, 0x0100) := by decide

theorem test_getgain : outcome (device true 0x1040 0) 0x45000000 =
    some (some (.ok 0x2), [.read 0 (some 0x1040)], true, 0x1040) := by decide

theorem test_getgain_bus_down : outcome (deadDevice true 0x18F3) 0x45000000 =
    some (some (.err .busError), [.read 0 none], true, 0x18F3) := by decide

theorem test_setsd : outcome (device true 0xFFFF 0) 0x51000000 =
    some (some (.ok 0x0), [.read 0 (some 0xFFFF), .write 0 0xFFFE true], true, 0xFFFE) := by decide

theorem test_setie : outcome (device true 0xFFFF 0) 0x52000000 =
    some (some (.ok 0x0), [.read 0 (some 0xFFFF), .write 0 0xFFFD true], true, 0xFFFD) := by decide

theorem test_setpers : outcome (device true 0xE40C 0) 0x53020000 =
    some (some (.ok 0x0), [.read 0 (some 0xE40C), .write 0 0xE42C true], true, 0xE42C) := by decide

theorem test_setit : outcome (device true 0xE40C 0) 0x54010000 =
    some (some (.ok 0x0), [.read 0 (some 0xE40C), .write 0 0xE60C true], true, 0xE60C) := by decide

theorem test_setit_write_fails : outcome (failing 2 0x18F3 0) 0x54010000 =
    some (some (.err .busError), [.read 0 (some 0x18F3), .write 0 0x1A33 false], true, 0x18F3) := by decide

theorem test_setgain : outcome (device true 0x18F3 0) 0x55020000 =
    some (some (.ok 0x0), [.read 0 (some 0x18F3), .write 0 0x10F3 true], true, 0x10F3) := by decide

theorem test_setgain_unbound : outcome (device false 0x18F3 0) 0x55010000 =
    some (some (.err .notInitialized), [], false, 0x18F3) := by decide

theorem test_init : outcome (device false 0xE40C 0) 0x60FFFFFF =
    some (some (.ok 0x0), [.write 0 0x0000 true], true, 0x0000) := by decide

theorem test_init_bus_down : outcome (deadDevice true 0x18F3) 0x60010000 =
    some (some (.err .busError), [.write 0 0x0000 false], true, 0x18F3) := by decide

theorem test_rdlux : outcome (device true 0x1840 100) 0x70000000 =
    some (some (.ok 0x413851EB), [.read 0 (some 0x1840), .read 0 (some 0x1840), .read 4 (some 100)], true, 0x1840) := by decide

theorem test_rdlux_guard_after_the_third_read : outcome (failing 3 0x0100 0x03E8) 0x70000000 =
    some (some (.err .busError), [.read 0 (some 0x0100), .read 0 (some 0x0100), .read 4 none], true, 0x0100) := by decide

/-! ## Witnesses: states and operands that meet the hypotheses of the statements, clause by clause -/

/-- A bound block before the reference device holding 0x18F3, with these inputs. -/
def given (inputs : List Input) : State := { device true 0x18F3 100 with inputs := inputs }

/-- The same with a command in progress and a transport that does not answer. -/
def waiting (p : Wait) (inputs : List Input) : State :=
  { device true 0x18F3 100 with inputs := inputs, pending := some p, line := .hung }

/-- The same with a command in progress and a transport that answers. -/
def resuming (p : Wait) : State := { device true 0x18F3 100 with pending := some p }

/-- The same, the transport's next turns scripted. -/
def resumingWith (p : Wait) (turns : List Turn) : State := { resuming p with turns := turns }

/-- The reference device holding 0x18F3, unless these turns say otherwise. -/
def scripted (turns : List Turn) : State := { device true 0x18F3 100 with turns := turns }

theorem witness_ResetBetweenCommandsClearsBound :
    ((given [.reset]).inputs = [.reset] ∧ (given [.reset]).pending = none ∧ (given [.reset]).bound = true) ∧
      (waiting .rdcfg [.reset]).inputs = [.reset] ∧ (waiting .rdcfg [.reset]).pending ≠ none := by decide

theorem witness_OutsideWorldChangesDeviceOnly :
    ((given [.world (.reg 6 0xBEEF)]).inputs = [.world (.reg 6 0xBEEF)] ∧ (6 : Byte) ∈ ([0, 1, 2, 4, 5, 6] : List Byte)) ∧
      (given [.world (.reg 0 1)]).inputs = [.world (.reg 0 1)] ∧
      (given [.world (.line .down)]).inputs = [.world (.line .down)] := by decide

theorem witness_StepRunsDecodedCommand :
    (given [.command 0x70FFFFFF]).pending = none ∧
      (given [.command 0x70FFFFFF]).inputs = [.command 0x70FFFFFF] ∧ decode 0x70FFFFFF = .ok .rdlux := by decide

theorem witness_UndefinedOpAnswersIllegalCommand :
    (given [.command 0x71000000]).pending = none ∧ (given [.command 0x71000000]).inputs = [.command 0x71000000] ∧
      (0x71000000 : Word32).extractLsb' 24 8 ∉ definedOps ∧ (0x00FFFFFF : Word32).extractLsb' 24 8 ∉ definedOps := by
  decide

theorem witness_AcceptedCommandAnswersOrWaits :
    (given [.command 0x40000000, .reset]).pending = none ∧
      (given [.command 0x40000000, .reset]).inputs = [.command 0x40000000, .reset] := by decide

theorem witness_BusyBlockAcceptsNoCommand :
    (waiting (.setWrite 0x1A33) [.command 0]).pending = some (.setWrite 0x1A33) ∧
      (waiting (.setWrite 0x1A33) [.command 0]).rsp = none ∧
      (waiting (.setWrite 0x1A33) [.command 0]).inputs = [.command 0] := by decide

theorem witness_UnansweredTransactionStaysStuck :
    (waiting .luxGain []).pending = some .luxGain ∧ (waiting .luxGain []).line = .hung ∧
      (waiting .luxGain []).turns = [] ∧ (waiting .luxGain []).inputs = [] ∧
      (waiting .luxGain [.command 0]).inputs = [.command 0] := by decide

/-- Commands that wait for their first transaction; INIT with `bound = 0` and with a further command at the port. -/
theorem witness_WaitingCommandGoesOnFromItsTransaction :
    ((resuming (.setRead .it 5)).pending = some (.setRead .it 5) ∧ (resuming (.setRead .it 5)).inputs = [] ∧
      (resuming (.setRead .it 5)).bound = true ∧ (5 : Byte).toNat ≤ setMax .it) ∧
    (resuming .rdcfg).pending = some .rdcfg ∧ (resuming (.get .gain)).pending = some (.get .gain) ∧
    (resuming .luxGain).pending = some .luxGain ∧ (waiting .luxGain [.command 0]).inputs = [.command 0] ∧
    ({ resuming .initWrite with bound := false }.pending = some .initWrite ∧
      { resuming .initWrite with bound := false }.bound = false ∧ (255 : Byte).toNat % 2 = 1) := by decide

/-- A setter that waits for its write, each way; and RDLUX that waits for its second or third read. -/
theorem witness_WaitingCommandGoesOnFromItsTransaction_later :
    ((memWrite 0 0x1A33 { resuming (.setWrite 0x1A33) with pending := none }).1 = .ok () ∧
      (memWrite 0 0x1A33 { resumingWith (.setWrite 0x1A33) [⟨[], .fail⟩] with pending := none }).1 = .fail ∧
      (memWrite 0 0x1A33 { resumingWith (.setWrite 0x1A33) [⟨[], .silent⟩] with pending := none }).1 = .silent) ∧
    ((memRead 0 { resuming (.luxTime 3) with pending := none }).1 = .ok 0x18F3 ∧
      (memRead 4 (memRead 0 { resuming (.luxTime 3) with pending := none }).2).1 = .ok 100 ∧
      (3 : BitVec 4).toNat < 4 ∧ indexOf ((0x18F3 : Word).toNat / 64 % 16) < 6) ∧
    ((memRead 4 { resuming (.luxCount 3 (some 5)) with pending := none }).1 = .ok 100 ∧
      (3 : BitVec 4).toNat < 4 ∧ (5 : BitVec 3).toNat < 6) := by decide

/-- The second read, each way: failed, unanswered, and answered with the third failed, unanswered, or answered with a
pattern outside the table. -/
theorem witness_WaitingRdluxFailsOrWaitsAtItsLaterReads_second :
    (resumingWith (.luxTime 3) []).pending = some (.luxTime 3) ∧ (resumingWith (.luxTime 3) []).inputs = [] ∧
    (memRead 0 { resumingWith (.luxTime 3) [⟨[], .fail⟩] with pending := none }).1 = .fail ∧
    (memRead 0 { resumingWith (.luxTime 3) [⟨[], .silent⟩] with pending := none }).1 = .silent ∧
    (memRead 0 { resumingWith (.luxTime 3) [⟨[], .deliver 0x0240⟩] with pending := none }).1 = .ok 0x0240 ∧
    (memRead 4 (memRead 0 { resumingWith (.luxTime 3) [⟨[], .asLine⟩, ⟨[], .fail⟩] with pending := none }).2).1 = .fail ∧
    (memRead 4 (memRead 0 { resumingWith (.luxTime 3) [⟨[], .asLine⟩, ⟨[], .silent⟩] with pending := none }).2).1 =
      .silent ∧
    (memRead 4 (memRead 0 { resumingWith (.luxTime 3) [⟨[], .deliver 0x0240⟩] with pending := none }).2).1 = .ok 100 ∧
    indexOf ((0x0240 : Word).toNat / 64 % 16) = 6 := by decide

/-- The third read, each way, with the index outside the table. -/
theorem witness_WaitingRdluxFailsOrWaitsAtItsLaterReads_third :
    (resumingWith (.luxCount 3 none) []).pending = some (.luxCount 3 none) ∧
    (memRead 4 { resumingWith (.luxCount 3 none) [⟨[], .fail⟩] with pending := none }).1 = .fail ∧
    (memRead 4 { resumingWith (.luxCount 3 none) [⟨[], .silent⟩] with pending := none }).1 = .silent ∧
    (memRead 4 { resumingWith (.luxCount 3 none) [] with pending := none }).1 = .ok 100 := by decide

theorem witness_StatusCodesAreSixAndFailuresCarryZero : (Response.err .illegalCommand).status ≠ 0 := by decide

theorem witness_BusPortSignalsOfAWaitingBlock :
    ((resuming (.setWrite 0x1A33)).busReq = true ∧ (resuming (.setWrite 0x1A33)).busWe = some true) ∧
      ((resuming (.luxCount 0 none)).busReq = true ∧ (resuming (.luxCount 0 none)).busWe = some false) ∧
      (given []).busReq = false := by decide

/-- Each kind of request, and a step of a waiting block whose first transaction is the requested one. -/
theorem witness_BusPortSignalsOfAWaitingBlock_requests :
    (resuming (.luxCount 3 (some 5))).pending = some (.luxCount 3 (some 5)) ∧
      (resuming (.setWrite 0x1A33)).pending = some (.setWrite 0x1A33) ∧
      (resuming .initWrite).pending = some .initWrite ∧
      Wait.luxTime 3 ∈ [.rdcfg, .get .sd, .setRead .sd 0, .luxGain, .luxTime 3] ∧
      Wait.setRead .it 1 ∈ [.rdcfg, .get .it, .setRead .it 1, .luxGain, .luxTime 0] ∧
      (match step (resuming (.setRead .it 1)) with
        | .next t => t.trace.head?
        | .fault _ => none
        | .refused _ => none) = some (.read 0 (some 0x18F3)) := by decide

theorem witness_DecodeEncodeRoundTrip :
    (Instr.cfgpack 0x3FF).wellFormed = true ∧ (Instr.init 1).wellFormed = true ∧
      (Instr.luxmul 15 15 0xFFFF).wellFormed = true := by decide

theorem witness_EncodeDecodeClearsIgnoredBits : decode 0x16FFFF3F = .ok (.cfgpack 0x33F) := by decide

theorem witness_IgnoredBitsDoNotChangeTheOperation :
    (0x60FFFFFF : Word32).extractLsb' 24 8 = (0x60010000 : Word32).extractLsb' 24 8 ∧
      (0x60FFFFFF : Word32) &&& usedBits 0x60 = 0x60010000 &&& usedBits 0x60 ∧
      (0x60FFFFFF : Word32) ≠ 0x60010000 := by decide

theorem witness_InsertOpsReplaceTheField :
    (1 : Byte).toNat < 2 ∧ (3 : Byte).toNat < 4 ∧ (15 : Byte).toNat < 16 := by decide

theorem witness_InsertOpsRejectWideOperands :
    2 ≤ (2 : Byte).toNat ∧ 4 ≤ (4 : Byte).toNat ∧ 16 ≤ (16 : Byte).toNat ∧ 16 ≤ (255 : Byte).toNat := by decide

theorem witness_PackUnpackLaws :
    CfgField.sd ≠ .gain ∧ (3 : Word).toNat < 2 ^ params.width .gain ∧ (1 : Word).toNat < 2 ^ params.width .sd ∧
      (15 : Word).toNat < 2 ^ params.width .it := by decide

theorem witness_PureOperationsDependOnOperandsAlone :
    isPure (.luxmul 15 15 0xFFFF) = true ∧ isPure .cfgdef = true ∧ isPure (.itdec 255) = true := by decide

theorem witness_TranslationsAreInverseOffTheSentinels :
    (5 : Byte).toNat ≤ 5 ∧ (12 : Byte) ∈ ([12, 8, 0, 1, 2, 3] : List Byte) ∧ (15 : Byte).toNat < 16 ∧
      (15 : Byte) ∉ ([12, 8, 0, 1, 2, 3] : List Byte) ∧ (4 : Byte) ∉ ([12, 8, 0, 1, 2, 3] : List Byte) := by decide

theorem witness_LuxresReturnsTheStoredConstant : (3 : BitVec 4).toNat < 4 ∧ (5 : BitVec 4).toNat < 6 := by decide

theorem witness_LuxOpsRejectIndicesOutsideTheTable :
    (4 ≤ (4 : BitVec 4).toNat ∨ 6 ≤ (0 : BitVec 4).toNat) ∧ (4 ≤ (0 : BitVec 4).toNat ∨ 6 ≤ (6 : BitVec 4).toNat) := by
  decide

theorem witness_StoredConstantsAreNearestToDecimals :
    luxRes 3 5 = some 0x3CEBEDFA ∧ (luxDecimals[(3 : BitVec 4).toNat]?).bind (fun row => row[(5 : BitVec 4).toNat]?) = some 288 ∧
      f32Finite 0x3CEBEDFB = true ∧ f32Magnitude 0x3CEBEDFB ≠ f32Magnitude 0x3CEBEDFA := by decide

theorem witness_ResolutionTimesGainTimesTimeIsConstant :
    (luxDecimals[(2 : BitVec 4).toNat]?).bind (fun row => row[(0 : BitVec 4).toNat]?) = some 18432 ∧
      luxRes 2 0 = some 0x3FEBEDFA := by decide

/-- The product of 1 + 2^-23 and 1.5 stands half way between two numbers: the tie clause has a case. -/
theorem witness_F32MulRoundsToNearestEven :
    f32Finite 0x3F800001 = true ∧ f32Finite 0x3FC00000 = true ∧ f32Mul 0x3F800001 0x3FC00000 = 0x3FC00002 ∧
      f32Finite 0x3FC00002 = true ∧ f32Finite 0x3FC00001 = true ∧
      2 * (f32Magnitude 0x3F800001 * f32Magnitude 0x3FC00000) =
        f32Magnitude 0x3FC00001 * 2 ^ 149 + f32Magnitude 0x3FC00002 * 2 ^ 149 := by decide

/-- The largest finite number times one is in range, and times two is not. -/
theorem witness_F32MulRoundsToNearestEven_range :
    f32Finite 0x7F7FFFFF = true ∧ f32Finite 0x3F800000 = true ∧ f32Finite 0x40000000 = true ∧
      f32Magnitude 0x7F7FFFFF * f32Magnitude 0x3F800000 < (2 ^ 25 - 1) * 2 ^ 252 * 2 ^ 149 ∧
      ¬ f32Magnitude 0x7F7FFFFF * f32Magnitude 0x40000000 < (2 ^ 25 - 1) * 2 ^ 252 * 2 ^ 149 := by decide

/-- Three counts at gain ×2 and 800 ms stand half way between two numbers. -/
theorem witness_LuxmulIsTheCorrectlyRoundedProduct :
    (1 : BitVec 4).toNat < 4 ∧ (5 : BitVec 4).toNat < 6 ∧ luxRes 1 5 = some 0x3B6BEDFA ∧
      f32Finite 0x3C30F27B = true ∧
      f32Distance 0x3C30F27C (3 * f32Magnitude 0x3B6BEDFA) = f32Distance 0x3C30F27B (3 * f32Magnitude 0x3B6BEDFA) ∧
      f32Magnitude 0x3C30F27B ≠ f32Magnitude 0x3C30F27C := by decide

theorem witness_LuxmulResultRange :
    (0 : BitVec 4).toNat < 4 ∧ (0 : BitVec 4).toNat < 6 ∧ (0xFFFF : Word) ≠ 0 ∧ (1 : Word) ≠ 0 := by decide

theorem witness_LuxmulRelativeErrorBelowTwoToMinus22 :
    (3 : BitVec 4).toNat < 4 ∧ (5 : BitVec 4).toNat < 6 ∧ (1 : Word) ≠ 0 := by decide

theorem witness_MemReadIsOneTransaction :
    (memRead 0 (scripted [])).1 = .ok 0x18F3 ∧ (memRead 0 (scripted [⟨[], .fail⟩])).1 = .fail ∧
      (memRead 0 (scripted [⟨[], .silent⟩])).1 = .silent := by decide

theorem witness_MemWriteChangesOneRegisterOrNothing :
    (memWrite 0 0x1A33 (scripted [])).1 = .ok () ∧ (memWrite 0 0x1A33 (scripted [⟨[.reg 0 1], .fail⟩])).1 = .fail ∧
      (memWrite 0 0x1A33 (scripted [⟨[], .silent⟩])).1 = .silent := by decide

theorem witness_EnvironmentMayAnswerAnything :
    (scripted [⟨[], .deliver 0xBEEF⟩]).turns = [⟨[], .deliver 0xBEEF⟩] ∧ (scripted [⟨[], .fail⟩]).turns = [⟨[], .fail⟩] ∧
      (scripted [⟨[], .silent⟩]).turns = [⟨[], .silent⟩] ∧
      (scripted [⟨[.line .down, .line .up] ++ [.reg 6 7], .asLine⟩]).turns =
        [⟨[.line .down, .line .up] ++ [.reg 6 7], .asLine⟩] ∧
      (takeTurn (scripted [⟨[.line .down, .line .up] ++ [.reg 6 7], .asLine⟩])).2.line = .up ∧
      (6 : Byte) ∈ ([0, 1, 2, 4, 5, 6] : List Byte) := by decide

theorem witness_ReferenceDeviceReadsBackWhatWasWritten :
    (device true 0x18F3 0).ReferenceUp ∧ (deadDevice true 0x18F3).ReferenceDown ∧
      (6 : Byte) ∈ ([0, 1, 2, 4, 5, 6] : List Byte) ∧ (3 : Byte) ∉ ([0, 1, 2, 4, 5, 6] : List Byte) ∧
      (7 : Byte) ∉ ([0, 1, 2, 4, 5, 6] : List Byte) ∧ (255 : Byte) ∉ ([0, 1, 2, 4, 5, 6] : List Byte) := by decide

theorem witness_UnboundBlockAnswersNotInitialized :
    isPure (.setit 9) = false ∧ (∀ p, Instr.setit 9 ≠ .init p) ∧ (device false 0x18F3 0).bound = false := by
  exact ⟨rfl, nofun, rfl⟩

theorem witness_GettersReturnWhatTheDeviceHolds :
    readingOf .getit ((device true 0x0100 0).mem.reg 0).toNat = some 6 ∧
      readingOf .rdcfg ((device true 0x0100 0).mem.reg 0).toNat = some 0x0100 ∧
      (device true 0x0100 0).bound = true ∧ (device true 0x0100 0).ReferenceUp := by decide

theorem witness_GettersUseTheWordAsDelivered :
    readingOf .getgain (0xFFFF : Word).toNat = some 3 ∧ (scripted []).bound = true ∧
      (memRead 0 (scripted [⟨[], .deliver 0xFFFF⟩])).1 = .ok 0xFFFF ∧ (memRead 0 (scripted [⟨[], .fail⟩])).1 = .fail ∧
      (memRead 0 (scripted [⟨[], .silent⟩])).1 = .silent ∧ Instr.getgain = getterOf .gain ∧
      readingOf .rdcfg (0xFFFF : Word).toNat = some 0xFFFF := by decide

theorem witness_SettersReplaceOneFieldOnTheDevice :
    (1 : Byte).toNat ≤ setMax .sd ∧ (1 : Byte).toNat ≤ setMax .ie ∧ (3 : Byte).toNat ≤ setMax .pers ∧
      (5 : Byte).toNat ≤ setMax .it ∧ (3 : Byte).toNat ≤ setMax .gain ∧ (device true 0xFFFF 0).bound = true ∧
      (device true 0xFFFF 0).ReferenceUp := by decide

theorem witness_SettersRejectBeforeTouchingTheBus :
    1 < (2 : Byte).toNat ∧ 3 < (4 : Byte).toNat ∧ 5 < (6 : Byte).toNat ∧ (deadDevice true 0x18F3).bound = true := by decide

theorem witness_SetterOutcomes : (1 : Byte).toNat ≤ setMax .it ∧ (scripted [⟨[], .silent⟩]).bound = true := by decide

/-- Three of the ways a bound setter can go, as steps; `test_setit` and `test_setit_write_fails` show the other two. -/
theorem witness_SetterOutcomes_ways :
    (outcome (scripted [⟨[], .silent⟩]) 0x54010000 = some (none, [], true, 0x18F3)) ∧
      (outcome (scripted [⟨[], .asLine⟩, ⟨[], .silent⟩]) 0x54010000 =
        some (none, [.read 0 (some 0x18F3)], true, 0x18F3)) ∧
      (outcome (scripted [⟨[], .fail⟩]) 0x54010000 = some (some (.err .busError), [.read 0 none], true, 0x18F3)) := by
  decide

/-- Both transactions, each way. -/
theorem witness_SetterOutcomes_answers :
    (memRead 0 (scripted [⟨[], .fail⟩])).1 = .fail ∧ (memRead 0 (scripted [⟨[], .silent⟩])).1 = .silent ∧
    (memRead 0 (scripted [])).1 = .ok 0x18F3 ∧ (0x1A33 : Word).toNat = wordAfterSet .it 1 (0x18F3 : Word).toNat ∧
    (memWrite 0 0x1A33 (memRead 0 (scripted [⟨[], .asLine⟩, ⟨[], .fail⟩])).2).1 = .fail ∧
    (memWrite 0 0x1A33 (memRead 0 (scripted [⟨[], .asLine⟩, ⟨[], .silent⟩])).2).1 = .silent ∧
    (memWrite 0 0x1A33 (memRead 0 (scripted [])).2).1 = .ok () := by decide

theorem witness_GetterReadsBackTheSetValue :
    (5 : Byte).toNat ≤ setMax .it ∧ (device true 0xE40C 0).bound = true ∧ (device true 0xE40C 0).ReferenceUp ∧
      CfgField.sd ≠ .it := by decide

/-- Program P6 of `95_test_vectors.md`: the lost update. -/
theorem witness_InterleavedWriteIsLost :
    (1 : Byte).toNat ≤ setMax .gain ∧
      outcome { device true 0 0 with turns := [⟨[], .asLine⟩, ⟨[.reg 0 2], .asLine⟩] } 0x55010000 =
        some (some (.ok 0), [.read 0 (some 0), .write 0 0x0800 true], true, 0x0800) := by decide

theorem witness_InitWritesTheDefaultAndBinds :
    (255 : Byte).toNat % 2 = 1 ∧ (1 : Byte).toNat % 2 = 1 ∧ (device false 0xFFFF 0).ReferenceUp := by decide

theorem witness_InitBindsOnlyOnASuccessfulWrite :
    (254 : Byte).toNat % 2 = 0 ∧ (1 : Byte).toNat % 2 = 1 ∧ (memWrite 0 0 (scripted [])).1 = .ok () ∧
      (memWrite 0 0 (scripted [⟨[], .fail⟩])).1 = .fail ∧ (memWrite 0 0 (scripted [⟨[], .silent⟩])).1 = .silent := by decide

theorem witness_DeviceHoldsTheDefaultAfterInit :
    (255 : Byte).toNat % 2 = 1 ∧ (device false 0xE7FF 0x03E8).ReferenceUp := by decide

theorem witness_RdluxComputesTheDevicesIlluminance :
    (device true 0x18F3 100).bound = true ∧ (device true 0x18F3 100).ReferenceUp ∧
      indexOf (((device true 0x18F3 100).mem.reg 0).toNat / 64 % 16) = 5 ∧
      indexOf (((device true 0x0240 500).mem.reg 0).toNat / 64 % 16) = 6 := by decide

/-- Program P6 of `95_test_vectors.md`: the torn illuminance, gain of the first word and time of the second. -/
theorem witness_RdluxOutcomes :
    (scripted [⟨[], .asLine⟩, ⟨[.reg 0 0x1300], .asLine⟩]).bound = true ∧
      (memRead 0 (scripted [⟨[], .fail⟩])).1 = .fail ∧
      (memRead 0 (memRead 0 (scripted [⟨[], .asLine⟩, ⟨[], .fail⟩])).2).1 = .fail ∧
      (memRead 4 (memRead 0 (memRead 0 (scripted [⟨[], .asLine⟩, ⟨[], .asLine⟩, ⟨[], .fail⟩])).2).2).1 = .fail ∧
      (memRead 0 (memRead 0 (scripted [⟨[], .asLine⟩, ⟨[.reg 0 0x1300], .asLine⟩])).2).1 = .ok 0x1300 ∧
      indexOf ((0x1300 : Word).toNat / 64 % 16) = 0 ∧ indexOf ((0xFFFF : Word).toNat / 64 % 16) = 6 := by decide

theorem witness_RdluxWaitsAtAnyOfItsReads :
    (memRead 0 (scripted [⟨[], .silent⟩])).1 = .silent ∧
      (memRead 0 (memRead 0 (scripted [⟨[], .asLine⟩, ⟨[], .silent⟩])).2).1 = .silent ∧
      (memRead 4 (memRead 0 (memRead 0 (scripted [⟨[], .asLine⟩, ⟨[], .asLine⟩, ⟨[], .silent⟩])).2).2).1 = .silent := by
  decide

/-- A setter that waits for its read, and whose write will fail. -/
def failingLater : State := { failing 2 0x18F3 0 with pending := some (.setRead .it 1) }

/-- Its step ends with `BusError`, which is one of its kinds, after the two transactions it had left. -/
theorem witness_waiting_command_fails :
    failingLater.pending = some (.setRead .it 1) ∧ failingLater.rsp = none ∧
    (match step failingLater with
      | .next t => some (t.rsp, t.trace, t.mem.reg 0)
      | .fault _ => none
      | .refused _ => none) =
    some (some (.err .busError), [.read 0 (some 0x18F3), .write 0 0x1A33 false], 0x18F3) := by decide

theorem witness_ErrorsAreThoseOfTheStatusTable :
    (failing 2 0x18F3 0).rsp = none ∧ failingLater.pending = some (.setRead .it 1) ∧ failingLater.rsp = none := by decide

theorem witness_OperationsFailFast : failingLater.pending = some (.setRead .it 1) := rfl

/-- A setter whose write fails. -/
theorem witness_FailedOperationChangesNothing :
    (failing 2 0x18F3 0).rsp = none ∧ (failing 2 0x18F3 0).pending = none ∧
      (match exec (.setit 1) (failing 2 0x18F3 0) with
        | .next t => t.rsp
        | .fault _ => none
        | .refused _ => none) = some (.err .busError) := by decide

/-- Both clauses: INIT from reset sets `bound`, a reset clears it. -/
theorem witness_BoundIsSetByInitAndClearedByReset :
    ((device false 0x18F3 0).bound = false ∧
      outcome (device false 0x18F3 0) 0x60010000 = some (some (.ok 0), [.write 0 0 true], true, 0)) ∧
      (given [.reset]).bound = true ∧
      step (given [.reset]) = .next { given [] with bound := false } := by
  exact ⟨by decide, rfl, rfl⟩

theorem witness_StepStopsOnlyForResetDuringCommand :
    (given []).inputs = [] ∧ (given []).pending = none ∧ (given []).bound = true := by decide

/-- The invariant holds of a state with a device, and of one in the middle of an RDLUX. -/
theorem witness_StepKeepsTheInvariant :
    (given [.command 0x70000000]).Inv ∧ (waiting (.luxCount 3 (some 5)) []).Inv ∧
      step (waiting (.luxCount 3 (some 5)) []) = .next (waiting (.luxCount 3 (some 5)) []) := by
  exact ⟨by decide, by decide, rfl⟩

end Sys2Proof.Tests
end

