-- ==== Sys2Proof/Proofs/HostPortLaws.lean ====
section
/-! SUPPORT. What the step does with a command word at the host port, and what the end of an operation (`Ends`) leaves of
`bound`, the response and the command in progress. -/

namespace Sys2Proof.Machine

/-- An idle block takes a legal command word and runs it (R11, R46). -/
theorem step_of_accepted {s : State} {c : Word32} {rest : List Input} {i : Instr} (hp : s.pending = none)
    (hi : s.inputs = .command c :: rest) (hd : decode c = .ok i) :
    step s = exec i { s with inputs := rest, rsp := none } := by
  simp only [step, nextEvent, hi, hp, hd]

/-- A busy block leaves the command word at the port; its own command has the turn (R41 item 3). -/
theorem step_of_busy {s : State} {p : Wait} {c : Word32} {rest : List Input} (hp : s.pending = some p)
    (hi : s.inputs = .command c :: rest) : step s = .next (resumeAt p { s with pending := none }) := by
  simp only [step, nextEvent, hi, hp]

section
variable {L : Prop} {b : Bool} {E : List ErrorKind} {n : Nat} {s t : State}

/-- An operation takes nothing from the host. -/
theorem Ends.inputs_eq (h : Ends L b E n s t) : t.inputs = s.inputs := by
  obtain ⟨new, -, -, -, -, hin, -⟩ := h
  exact hin

/-- From a state without response and command in progress, an operation ends with exactly one of the two. -/
theorem Ends.answers_or_waits (h : Ends L b E n s t) (hr : s.rsp = none) (hp : s.pending = none) :
    (t.rsp ≠ none ∧ t.pending = none) ∨ (t.rsp = none ∧ t.pending ≠ none) := by
  obtain ⟨new, -, -, -, -, -, -, ⟨v, hv, hpend, -⟩ | ⟨k, -, rfl, -⟩ | ⟨p, hrsp, hpend, -⟩⟩ := h
  · exact .inl ⟨by simp [hv], hpend.trans hp⟩
  · obtain ⟨⟨-, fp, -⟩, -⟩ := turnsTaken_frame new.length s
    exact .inl ⟨by simp, fp.trans hp⟩
  · exact .inr ⟨hrsp.trans hr, by simp [hpend]⟩

/-- An operation keeps `bound`, unless it may bind and its one transaction was the successful write of 0 to address 0
(R15, R116). -/
theorem Ends.bound_cases (h : Ends L b E n s t) : t.bound = s.bound ∨
    (b = true ∧ t.bound = true ∧ t.trace = s.trace ++ [.write 0 0 true] ∧ t.rsp = some (.ok 0)) := by
  obtain ⟨new, htr, -, -, -, -, -, ⟨v, hv, -, -, hb | ⟨hmay, hb, rfl, rfl⟩⟩ | ⟨k, -, rfl, -⟩ | ⟨p, -, -, -, hb, -⟩⟩ := h
  · exact .inl hb
  · exact .inr ⟨hmay, hb, htr, hv⟩
  · obtain ⟨⟨fb, -⟩, -⟩ := turnsTaken_frame new.length s
    exact .inl fb
  · exact .inl hb

end

/-- Only a word with `op` 0x60 and bit 0 of `v` set is an INIT with a bus supplied (R49, R53). -/
theorem initWord_of_decode {c : Word32} {i : Instr} (hd : decode c = .ok i) (hi : isInit i = true) :
    c.extractLsb' 24 8 = 0x60 ∧ c.getLsbD 16 = true := by
  unfold decode at hd
  split at hd <;> cases hd
  -- the arm of `op` 0x60; in every other arm the instruction is no INIT
  case h_29 hop => exact ⟨BitVec.eq_of_toNat_eq hop, by simpa [isInit, busSupplied, vOf] using hi⟩
  all_goals cases hi

/-- What a step can do to `bound` (R15, R131): keep it, clear it by a reset between commands, or set it by an INIT, newly
accepted or in progress, whose write succeeded. -/
theorem step_bound_cases {s t : State} (h : step s = .next t) : t.bound = s.bound ∨
    (t.bound = false ∧ s.pending = none ∧ ∃ rest, s.inputs = .reset :: rest) ∨
    (t.bound = true ∧ t.trace = s.trace ++ [.write 0 0 true] ∧ t.rsp = some (.ok 0) ∧
      (s.pending = some .initWrite ∨
        ∃ c rest, s.pending = none ∧ s.inputs = .command c :: rest ∧ c.extractLsb' 24 8 = 0x60 ∧
          c.getLsbD 16 = true)) := by
  rcases step_cases h with ⟨-, -, rfl⟩ | ⟨c, rest, -, rfl⟩ | ⟨rest, hi, hp, rfl⟩ |
    ⟨c, rest, hi, hp, ⟨i, hd, he⟩ | ⟨r, -, rfl⟩⟩ | ⟨p, hp, -, rfl⟩
  · exact .inl rfl
  · obtain ⟨⟨fb, -⟩, -⟩ := applyChange_frame c { s with inputs := rest }
    exact .inl fb
  · exact .inr (.inl ⟨rfl, hp, rest, hi⟩)
  · obtain ⟨t', he', hends⟩ := exec_ends i { s with inputs := rest, rsp := none }
    obtain rfl : t' = t := by simpa [he'] using he
    rcases hends.bound_cases with hb | ⟨hinit, hb, htr, hrsp⟩
    · exact .inl hb
    · exact .inr (.inr ⟨hb, htr, hrsp, .inr ⟨c, rest, hp, hi, initWord_of_decode hd hinit⟩⟩)
  · exact .inl rfl
  · rcases (resume_ends p { s with pending := none }).bound_cases with hb | ⟨hinit, hb, htr, hrsp⟩
    · exact .inl hb
    · obtain rfl : p = .initWrite := by simpa using hinit
      exact .inr (.inr ⟨hb, htr, hrsp, .inl hp⟩)

end Sys2Proof.Machine
end

