-- ==== Sys2Proof/Proofs/PureAnswers.lean ====
section
/-! SUPPORT. The operations that need no bus (`40_codec.md` R66): each gives one response, whatever the state is. -/

namespace Sys2Proof.Machine

/-- The operation gives one response, the same at every state and none of the errors that need a bus or a bound block,
and changes nothing else (R66, R125). -/
def AnswersAlike (op : State → Host.Outcome State Fault Refusal) : Prop :=
  ∃ r, r ≠ .err .notInitialized ∧ r ≠ .err .busError ∧ r ≠ .err .invalidDeviceState ∧
    ∀ s, op s = .next { s with rsp := some r }

theorem answersAlike_finish (v : Word32) : AnswersAlike fun s => .next (finish v s) :=
  ⟨.ok v, nofun, nofun, nofun, fun _ => rfl⟩

theorem answersAlike_raise_invalidParameter : AnswersAlike fun s => .next (raise .invalidParameter s) :=
  ⟨.err .invalidParameter, nofun, nofun, nofun, fun _ => rfl⟩

/-- The operand's range does not depend on the state (R62). -/
theorem answersAlike_insertField (f : CfgField) (v : Byte) (w : Word) :
    AnswersAlike fun s => .next (insertField f v w s) := by
  unfold insertField
  split
  · exact answersAlike_finish _
  · exact answersAlike_raise_invalidParameter

/-- Nor does the guarded lookup of the caller's indices (R92). -/
theorem answersAlike_withLuxRes (c : Option Word32) (use : Word32 → Word32) :
    AnswersAlike fun s => .next (withLuxRes .invalidParameter c use s) := by
  cases c with
  | none => exact answersAlike_raise_invalidParameter
  | some r => exact answersAlike_finish (use r)

/-- Every operation of the codec, integration-time and lux families answers alike at every state. -/
theorem exec_answersAlike_of_isPure {i : Instr} (h : isPure i = true) : AnswersAlike (exec i) := by
  cases i with
  | xsd | xie | xpers | xit | xgain | cfgunpk | cfgpack | cfgdef | itenc | itdec => exact answersAlike_finish _
  | isd | iie | ipers | iit | igain => exact answersAlike_insertField _ _ _
  | luxres | luxmul => exact answersAlike_withLuxRes _ _
  | rdcfg | getsd | getie | getpers | getit | getgain => cases h
  | setsd | setie | setpers | setit | setgain | init | rdlux => cases h

end Sys2Proof.Machine
end

