-- ==== Sys2Proof/Proofs/State.lean ====
section
/-! PROOFS. The statements on the block's state (`10_state.md`). -/

namespace Sys2Proof.Proofs

open Sys2Proof Sys2Proof.Machine

/-- Settles O56: of the three things a step can do to `bound`, one sets it and one clears it. -/
theorem boundIsSetByInitAndClearedByReset : Obligations.BoundIsSetByInitAndClearedByReset := by
  intro s t h
  rcases step_bound_cases h with hkeep | ⟨hclear, hp, hreset⟩ | ⟨hset, htr, hrsp, hinit⟩
  · exact ⟨fun h0 h1 => by simp [hkeep, h0] at h1, fun h1 h0 => by simp [hkeep, h1] at h0⟩
  · exact ⟨fun _ h1 => by simp [hclear] at h1, fun _ _ => ⟨hp, hreset⟩⟩
  · exact ⟨fun _ _ => ⟨htr, hrsp, hinit⟩, fun _ h0 => by simp [hset] at h0⟩

/-- Settles O7: the step of a busy block resumes its own command, which takes nothing from the host. -/
theorem busyBlockAcceptsNoCommand : Obligations.BusyBlockAcceptsNoCommand := by
  intro s p c rest hp hr hi
  have hends := resume_ends p { s with pending := none }
  exact ⟨_, step_of_busy hp hi, hends.inputs_eq, hends.answers_or_waits hr rfl⟩

/-- Settles O22: no operation without a bus reads the state. -/
theorem pureOperationsDependOnOperandsAlone : Obligations.PureOperationsDependOnOperandsAlone :=
  fun _ h => exec_answersAlike_of_isPure h

/-- Settles O1: the reset state is written out. -/
theorem resetLeavesBlockUnboundAndIdle : Obligations.ResetLeavesBlockUnboundAndIdle := by
  unfold Obligations.ResetLeavesBlockUnboundAndIdle
  decide

/-- Settles O4: acceptance is the case of the step with a legal word and no command in progress. -/
theorem stepRunsDecodedCommand : Obligations.StepRunsDecodedCommand :=
  fun _ _ _ _ hp hi hd => step_of_accepted hp hi hd

/-- Settles O58: after reset the memory, the trace and the command in progress are empty. -/
theorem resetMeetsTheInvariant : Obligations.ResetMeetsTheInvariant := by
  unfold Obligations.ResetMeetsTheInvariant
  decide

end Sys2Proof.Proofs
end

