-- ==== Sys2Proof/Proofs/MemoryLaws.lean ====
section
/-! SUPPORT. What a step does while the outside world acts or a command waits, what the end of an operation (`Ends`)
leaves of the invariant and of the trace, and the transport's answer for each turn and address (`20_memory.md`). -/

namespace Sys2Proof.Machine

/-- The registers of the device, as R29 and R40 list them. -/
theorem mapped_iff_mem (a : Byte) : mapped a = true ↔ a ∈ ([0, 1, 2, 4, 5, 6] : List Byte) := by
  simp [mapped, or_assoc]

/-- The number of a register is that of its two wire bytes, the first one low (R35). -/
theorem Memory.reg_toNat (m : Memory) (a : Byte) :
    (m.reg a).toNat = (m.byte (lowKey a)).toNat + 256 * (m.byte (lowKey a + 1)).toNat := by
  have hlow := (m.byte (lowKey a)).isLt
  rw [Memory.reg, BitVec.toNat_append, ← Nat.shiftLeft_add_eq_or_of_lt hlow, Nat.shiftLeft_eq]
  omega

/-- The outside world acts at once, whether or not a command is in progress (R39). -/
theorem step_of_world {s : State} {c : Change} {rest : List Input} (hi : s.inputs = .world c :: rest) :
    step s = .next (applyChange c { s with inputs := rest }) := by
  simp only [step, nextEvent, hi]

/-- A step of a waiting block is an act of the outside world, or the command in progress goes on. -/
theorem step_cases_of_pending {s t : State} {p : Wait} (hp : s.pending = some p) (h : step s = .next t) :
    (∃ c rest, t = applyChange c { s with inputs := rest }) ∨ t = resumeAt p { s with pending := none } := by
  rcases step_cases h with ⟨-, hn, -⟩ | ⟨c, rest, -, ht⟩ | ⟨-, -, hn, -⟩ | ⟨-, -, -, hn, -⟩ | ⟨q, hq, -, ht⟩
  · simp [hp] at hn
  · exact .inl ⟨c, rest, ht⟩
  · simp [hp] at hn
  · simp [hp] at hn
  · obtain rfl : p = q := by simpa [hp] using hq
    exact .inr ht

/-! ### The invariant -/

/-- Between commands the invariant speaks of the memory and the trace alone. -/
theorem inv_of_idle {s : State} (hm : MemoryOk s.mem) (htr : s.trace.all BusTxn.legal = true) (hp : s.pending = none) :
    s.Inv := by
  obtain ⟨hwf, hmapped⟩ := hm
  exact ⟨hwf, hmapped, htr, by simp [hp], fun h => absurd hp h⟩

/-- With a command in progress it speaks of that command and the response besides. -/
theorem inv_of_waiting {s : State} {p : Wait} (hm : MemoryOk s.mem) (htr : s.trace.all BusTxn.legal = true)
    (hp : s.pending = some p) (hlegal : p.legal s.bound = true) (hr : s.rsp = none) : s.Inv := by
  obtain ⟨hwf, hmapped⟩ := hm
  exact ⟨hwf, hmapped, htr, by simp [hp, hlegal], fun _ => hr⟩

/-- An act of the outside world keeps the invariant: it is an act on the device and the bus (R39). -/
theorem applyChange_keeps_inv {s : State} (c : Change) (h : s.Inv) : (applyChange c s).Inv := by
  obtain ⟨hwf, hmapped, htr, hlegal, hr⟩ := h
  obtain ⟨⟨fb, fp, fr, -⟩, -, ft, fm⟩ := applyChange_frame c s
  obtain ⟨hwf', hmapped'⟩ := fm ⟨hwf, hmapped⟩
  exact ⟨hwf', hmapped', by rw [ft]; exact htr, by rw [fb, fp]; exact hlegal, by rw [fp, fr]; exact hr⟩

/-- An operation that starts as a legal one, with no response and no command in progress, ends in the invariant. -/
theorem Ends.inv {L b E n} {s t : State} (h : Ends L b E n s t) (hL : L) (hm : MemoryOk s.mem)
    (htr : s.trace.all BusTxn.legal = true) (hp : s.pending = none) (hr : s.rsp = none) : t.Inv := by
  obtain ⟨new, htrace, -, hnew, -, -, hmem, hend⟩ := h
  have htr' : t.trace.all BusTxn.legal = true := by simp only [htrace, List.all_append, htr, hnew, Bool.and_self]
  rcases hend with ⟨v, -, hpend, -⟩ | ⟨k, -, rfl, -⟩ | ⟨p, hrsp, hpend, hlegal, hbound, -⟩
  · exact inv_of_idle (hmem hm) htr' (hpend.trans hp)
  · obtain ⟨⟨-, fp, -⟩, -⟩ := turnsTaken_frame new.length s
    exact inv_of_idle (hmem hm) htr' (fp.trans hp)
  · exact inv_of_waiting (hmem hm) htr' hpend (by rw [hbound]; exact hlegal hL) (hrsp.trans hr)

/-- Each kind of step keeps the invariant. -/
theorem step_keeps_inv {s t : State} (hs : s.Inv) (h : step s = .next t) : t.Inv := by
  have ⟨hwf, hmapped, htr, hlegal, hr⟩ := hs
  have hm : MemoryOk s.mem := ⟨hwf, hmapped⟩
  rcases step_cases h with ⟨-, -, rfl⟩ | ⟨c, rest, -, rfl⟩ | ⟨rest, -, -, rfl⟩ |
    ⟨c, rest, -, hp, ⟨i, -, he⟩ | ⟨r, -, rfl⟩⟩ | ⟨p, hp, -, rfl⟩
  · exact hs
  · exact applyChange_keeps_inv c (s := { s with inputs := rest }) hs
  · exact inv_of_idle hm htr rfl
  · obtain ⟨t', he', hends⟩ := exec_ends i { s with inputs := rest, rsp := none }
    obtain rfl : t' = t := by simpa [he'] using he
    exact hends.inv trivial hm htr hp rfl
  · exact inv_of_idle hm htr hp
  · have hp' : p.legal s.bound = true := by simpa [hp] using hlegal
    exact (resume_ends p { s with pending := none }).inv hp' hm htr rfl (hr (by simp [hp]))

/-! ### Failing fast -/

/-- `t` follows `s` with at most `n` further transactions, of which only the last may have failed, and then `t` has
ended with `BusError` and has the command in progress `p` (R42). -/
def FailsFast (n : Nat) (p : Option Wait) (s t : State) : Prop :=
  ∃ new, t.trace = s.trace ++ new ∧ new.length ≤ n ∧ (∀ x ∈ new.dropLast, x.succeeded = true) ∧
    ∀ x ∈ new, x.succeeded = false → t.rsp = some (.err .busError) ∧ t.pending = p

/-- What issues no transaction fails fast. -/
theorem failsFast_of_trace_eq {n p} {s t : State} (h : t.trace = s.trace) : FailsFast n p s t :=
  ⟨[], by simp [h], by simp, by simp, by simp⟩

/-- Every operation fails fast: a transaction that failed is the cause of a `BusError`. -/
theorem Ends.failsFast {L b E n} {s t : State} (h : Ends L b E n s t) : FailsFast n s.pending s t := by
  obtain ⟨new, htrace, hlen, -, hlast, -, -, hend⟩ := h
  refine ⟨new, htrace, hlen, hlast, fun x hx hfail => ?_⟩
  have habsurd : ¬ new.all BusTxn.succeeded = true := fun hall => by
    simp [List.all_eq_true.mp hall x hx] at hfail
  rcases hend with ⟨-, -, -, hall, -⟩ | ⟨k, -, rfl, -, hk⟩ | ⟨-, -, -, -, -, hall⟩
  · exact absurd hall habsurd
  · obtain rfl : k = .busError := by_contra fun hne => habsurd (hk hne)
    obtain ⟨⟨-, fp, -⟩, -⟩ := turnsTaken_frame new.length s
    exact ⟨rfl, fp⟩
  · exact absurd hall habsurd

/-! ### The bus port -/

/-- The port signals of a waiting block are the parts of its request (R34). -/
theorem busSignals_of_pending {s : State} {p : Wait} (hp : s.pending = some p) :
    s.busAddr = some p.request.1 ∧ s.busWe = some p.request.2.isSome ∧ s.busWdata = p.request.2 := by
  simp [State.busAddr, State.busWe, State.busWdata, hp]

/-- The block requests a read of address 0 or 4, or a write of address 0 (R30). -/
theorem request_cases (p : Wait) :
    p.request = (0, none) ∨ p.request = (4, none) ∨ ∃ w, p.request = (0, some w) := by
  cases p with
  | rdcfg | get | setRead | luxGain | luxTime => exact .inl rfl
  | luxCount => exact .inr (.inl rfl)
  | setWrite w => exact .inr (.inr ⟨w, rfl⟩)
  | initWrite => exact .inr (.inr ⟨cfgDefault, rfl⟩)

/-- The first transaction of a waiting block's step, if there is one, is the requested one (R41). -/
theorem step_requests {s t : State} {p : Wait} (hp : s.pending = some p) (h : step s = .next t) :
    Requests p.request s t := by
  rcases step_cases_of_pending hp h with ⟨c, rest, rfl⟩ | rfl
  · obtain ⟨-, -, ft, -⟩ := applyChange_frame c { s with inputs := rest }
    exact ⟨[], by simp [ft], by simp⟩
  · exact resume_requests p { s with pending := none }

/-! ### The transport's answers -/

/-- A scripted turn's reply is the one the transport takes. -/
theorem takeTurn_reply {s : State} {u : Turn} {rest : List Turn} (h : s.turns = u :: rest) :
    (takeTurn s).1 = u.reply := by
  simp [takeTurn, h]

/-- A register that the outside world sets last in a turn holds that value after it (R39). -/
theorem takeTurn_reg_of_last_change {s : State} {cs : List Change} {r : Reply} {rest : List Turn} {a : Byte} {v : Word}
    (h : s.turns = ⟨cs ++ [.reg a v], r⟩ :: rest) (ha : mapped a = true) : (takeTurn s).2.mem.reg a = v := by
  simp [takeTurn, h, applyChange, ha]

/-- A delivered word is read, whatever the register holds (R31, R138). -/
theorem memRead_of_deliver {s : State} {v : Word} (h : (takeTurn s).1 = .deliver v) (a : Byte) :
    (memRead a s).1 = .ok v := by
  simp [memRead, h, treatment]

/-- A scripted failure fails the read, whatever the line says (R31). -/
theorem memRead_of_fail {s : State} (h : (takeTurn s).1 = .fail) (a : Byte) : (memRead a s).1 = .fail := by
  simp [memRead, h, treatment]

/-- A silent turn leaves the read unanswered (R143). -/
theorem memRead_of_silent {s : State} (h : (takeTurn s).1 = .silent) (a : Byte) : (memRead a s).1 = .silent := by
  simp [memRead, h, treatment]

/-- With the line up a read of a register is carried out on the device as the turn left it (R40). -/
theorem memRead_of_carry {s : State} (h : (takeTurn s).1 = .asLine) (hl : (takeTurn s).2.line = .up) {a : Byte}
    (ha : mapped a = true) : (memRead a s).1 = .ok ((takeTurn s).2.mem.reg a) := by
  simp [memRead, h, hl, treatment, ha]

/-- The reference device with its bus up fails a read of an address without a register (R40). -/
theorem memRead_of_up_unmapped {s : State} (h : s.ReferenceUp) {a : Byte} (ha : ¬ mapped a = true) :
    memRead a s = (.fail, s.record (.read a none)) := by
  simp [memRead, takeTurn_of_no_turns h.1, h.2, treatment, ha]

/-- It fails a write there too, and changes nothing (R40). -/
theorem memWrite_of_up_unmapped {s : State} (h : s.ReferenceUp) {a : Byte} (ha : ¬ mapped a = true) (v : Word) :
    memWrite a v s = (.fail, s.record (.write a v false)) := by
  simp [memWrite, carryWrite, takeTurn_of_no_turns h.1, h.2, treatment, ha]

end Sys2Proof.Machine
end

