-- ==== Sys2Proof/Proofs/Memory.lean ====
section
/-! PROOFS. The statements on the device's registers, the bus and what every step keeps of them (`20_memory.md`). -/

namespace Sys2Proof.Proofs

open Sys2Proof Sys2Proof.Machine

/-- Settles O57: by the kind of the step; an operation ends in the invariant however it ends. -/
theorem stepKeepsTheInvariant : Obligations.StepKeepsTheInvariant :=
  fun _ _ hs h => step_keeps_inv hs h

/-- Settles O11: the port signals are the parts of the request of the command in progress, and a step of a waiting block
makes that request first. -/
theorem busPortSignalsOfAWaitingBlock : Obligations.BusPortSignalsOfAWaitingBlock := by
  intro s
  rcases hp : s.pending with _ | p
  · simp [State.busReq, State.cmdReady, State.busWidth, State.busAddr, State.busWe, State.busWdata, hp]
  · obtain ⟨haddr, hwe, hdata⟩ := busSignals_of_pending hp
    have hreq : s.busReq = true := by simp [State.busReq, hp]
    have hwidth : s.busWidth = some 2 := by simp [State.busWidth, hp, params]
    rw [haddr, hwe, hdata, hreq, hwidth]
    refine ⟨by simp, by simp [State.cmdReady, hp], fun _ => ⟨rfl, ?_⟩, nofun, ?_, ?_, ?_, ?_, ?_⟩
    · rcases request_cases p with e | e | ⟨w, e⟩ <;> simp [e]
    · rintro g t ⟨⟩
      exact ⟨rfl, rfl⟩
    · rintro w ⟨⟩
      exact ⟨rfl, rfl, rfl⟩
    · rintro ⟨⟩
      exact ⟨rfl, rfl, rfl⟩
    · rintro q f v g ⟨⟩ hq
      simp only [List.mem_cons, List.not_mem_nil, or_false] at hq
      rcases hq with rfl | rfl | rfl | rfl | rfl <;> exact ⟨rfl, rfl⟩
    · intro t _ h
      obtain ⟨new, htrace, hfirst⟩ := step_requests hp h
      exact ⟨new, htrace, fun x hx => by simp [← hfirst x hx]⟩

/-- Settles O35: by the three outcomes of a write. -/
theorem memWriteChangesOneRegisterOrNothing : Obligations.MemWriteChangesOneRegisterOrNothing := by
  intro a v s t x h
  obtain ⟨⟨fb, fp, fr, fi⟩, fturns, ftrace, -⟩ := takeTurn_frame s
  rcases memWrite_cases a v s with ⟨-, e⟩ | e | e <;> obtain ⟨rfl, rfl⟩ := Prod.mk.inj (e.symm.trans h)
  · refine ⟨fb, fp, fr, fi, fturns, rfl, fun _ => ⟨?_, ?_, fun k h0 h1 => ?_⟩, nofun, nofun⟩
    · exact Memory.reg_setReg_same _ a v
    · exact congrArg (· ++ [_]) ftrace
    · exact Memory.byte_setReg_other _ v h0 h1
  · exact ⟨fb, fp, fr, fi, fturns, rfl, nofun, fun _ => ⟨rfl, congrArg (· ++ [_]) ftrace⟩, nofun⟩
  · exact ⟨fb, fp, fr, fi, fturns, rfl, nofun, nofun, fun _ => ⟨rfl, ftrace⟩⟩

/-- Settles O37: the three environments are the bus up at a register, the bus up elsewhere, and the bus down. -/
theorem referenceDeviceReadsBackWhatWasWritten : Obligations.ReferenceDeviceReadsBackWhatWasWritten := by
  intro a v s
  simp only [← mapped_iff_mem]
  refine ⟨fun hup ha => ?_, fun hup ha => ?_, fun hdown => ?_⟩
  · obtain ⟨t, ht, htup, htmem⟩ : ∃ t, memWrite a v s = (.ok (), t) ∧ t.ReferenceUp ∧ t.mem = s.mem.setReg a v :=
      ⟨_, memWrite_of_up hup ha v, hup, rfl⟩
    refine ⟨by rw [memRead_of_up hup ha], by rw [memRead_of_up hup ha, record_mem], t, ht, htup, ?_, fun b hb hne => ?_⟩
    · rw [memRead_of_up htup ha, htmem, Memory.reg_setReg_same]
    · rw [memRead_of_up htup hb, memRead_of_up hup hb, htmem, Memory.reg_setReg_other _ _ hne]
  · simp [memRead_of_up_unmapped hup ha, memWrite_of_up_unmapped hup ha]
  · simp [memRead_of_down hdown, memWrite_of_down hdown]

/-- Settles O55: an accepted command and a resumed one end as operations do, and an act of the outside world issues no
transaction. -/
theorem operationsFailFast : Obligations.OperationsFailFast := by
  refine ⟨fun i s => ?_, fun s t p hp h => ?_⟩
  · obtain ⟨t, he, hends⟩ := exec_ends i s
    obtain ⟨new, hfast⟩ := hends.failsFast
    exact ⟨t, new, he, hfast⟩
  · rcases step_cases_of_pending hp h with ⟨c, rest, rfl⟩ | rfl
    · obtain ⟨-, -, ft, -⟩ := applyChange_frame c { s with inputs := rest }
      exact failsFast_of_trace_eq ft
    · exact (resume_ends p { s with pending := none }).failsFast

/-- Settles O3: the step is the change itself, on a register or on the bus. -/
theorem outsideWorldChangesDeviceOnly : Obligations.OutsideWorldChangesDeviceOnly := by
  refine ⟨fun s a v rest hi ha => ?_, fun s l rest hi => step_of_world hi⟩
  have hmapped := (mapped_iff_mem a).mpr ha
  exact ⟨s.mem.setReg a v, by simp [step_of_world hi, applyChange, hmapped], Memory.reg_setReg_same _ a v,
    fun k h0 h1 => Memory.byte_setReg_other _ v h0 h1⟩

/-- Settles O34: by the three outcomes of a read. -/
theorem memReadIsOneTransaction : Obligations.MemReadIsOneTransaction := by
  intro a s t x h
  obtain ⟨⟨fb, fp, fr, fi⟩, fturns, ftrace, -⟩ := takeTurn_frame s
  rcases memRead_cases a s with ⟨v, e⟩ | e | e <;> obtain ⟨rfl, rfl⟩ := Prod.mk.inj (e.symm.trans h)
  · refine ⟨fb, fp, fr, fi, fturns, rfl, rfl, ?_, nofun, nofun⟩
    rintro w ⟨⟩
    exact congrArg (· ++ [_]) ftrace
  · exact ⟨fb, fp, fr, fi, fturns, rfl, rfl, nofun, fun _ => congrArg (· ++ [_]) ftrace, nofun⟩
  · exact ⟨fb, fp, fr, fi, fturns, rfl, rfl, nofun, nofun, fun _ => ftrace⟩

/-- Settles O36: one lemma per reply; a change that comes last in the turn is what the carried-out read sees. -/
theorem environmentMayAnswerAnything : Obligations.EnvironmentMayAnswerAnything := by
  intro a s cs rest
  refine ⟨fun v h => memRead_of_deliver (takeTurn_reply h) a, fun h => memRead_of_fail (takeTurn_reply h) a,
    fun h => memRead_of_silent (takeTurn_reply h) a, fun v h hl ha => ?_⟩
  have hmapped := (mapped_iff_mem a).mpr ha
  rw [memRead_of_carry (takeTurn_reply h) hl hmapped, takeTurn_reg_of_last_change h hmapped]

/-- Settles O38: `lowKey a` is `2 * a`, and a byte of a word is a quotient and a remainder by 256. -/
theorem registersAreLittleEndianOnTheWire : Obligations.RegistersAreLittleEndianOnTheWire := by
  intro m a v
  have hv := v.isLt
  refine ⟨Memory.reg_toNat m a, ?_, ?_⟩
  · rw [← lowKey, Memory.byte_setReg_low, BitVec.extractLsb'_toNat, Nat.shiftRight_zero]
  · rw [← lowKey, Memory.byte_setReg_high, BitVec.extractLsb'_toNat, Nat.shiftRight_eq_div_pow]
    omega

end Sys2Proof.Proofs
end

