-- ==== Sys2Proof/Proofs/EncodingLaws.lean ====
section
/-! SUPPORT. The command word as its three fields, the masks of the partly read operands (`30_encoding.md` R47, R51,
R52), and what the decoder keeps of each field: the bits its operation uses, and no others. -/

namespace Sys2Proof

open Sys2Proof.Machine

/-! ### Fields and masks -/

/-- A command word is its three fields, and nothing else (R47). -/
theorem commandWord_fields (c : Word32) : commandWord (opOf c) (vOf c) (wOf c) = c := by
  have hopv : opOf c ++ vOf c = c.extractLsb' 16 16 := BitVec.extractLsb'_append_extractLsb'_eq_extractLsb' rfl
  calc opOf c ++ vOf c ++ wOf c
    _ = c.extractLsb' 16 16 ++ c.extractLsb' 0 16 := by rw [hopv, wOf]
    _ = c.extractLsb' 0 32 := BitVec.extractLsb'_append_extractLsb'_eq_extractLsb' rfl
    _ = c := BitVec.extractLsb'_eq_self

theorem eq_of_fields_eq {c c' : Word32} (hop : opOf c = opOf c') (hv : vOf c = vOf c') (hw : wOf c = wOf c') :
    c = c' := by
  rw [← commandWord_fields c, ← commandWord_fields c', hop, hv, hw]

@[simp] theorem opOf_and (c m : Word32) : opOf (c &&& m) = opOf c &&& opOf m := BitVec.extractLsb'_and
@[simp] theorem vOf_and (c m : Word32) : vOf (c &&& m) = vOf c &&& vOf m := BitVec.extractLsb'_and
@[simp] theorem wOf_and (c m : Word32) : wOf (c &&& m) = wOf c &&& wOf m := BitVec.extractLsb'_and

/-- The two indices are the two halves of `v` (R49). -/
@[simp] theorem gainIndexOf_append_timeIndexOf (v : Byte) : gainIndexOf v ++ timeIndexOf v = v :=
  (BitVec.extractLsb'_append_extractLsb'_eq_extractLsb' rfl).trans BitVec.extractLsb'_eq_self

@[simp] theorem byte_and_ones (v : Byte) : v &&& 0xFF#8 = v := BitVec.and_allOnes
@[simp] theorem word_and_ones (w : Word) : w &&& 0xFFFF#16 = w := BitVec.and_allOnes

/-- Masking with the low `k` bits takes the remainder by `2^k`. -/
theorem toNat_and_lowMask {n k : Nat} {m : BitVec n} (hm : m.toNat = 2 ^ k - 1) (x : BitVec n) :
    (x &&& m).toNat = x.toNat % 2 ^ k := by
  rw [BitVec.toNat_and, hm, Nat.and_two_pow_sub_one_eq_mod]

theorem toNat_and_lowMask_lt {n k : Nat} {m : BitVec n} (hm : m.toNat = 2 ^ k - 1) (x : BitVec n) :
    (x &&& m).toNat < 2 ^ k := by
  rw [toNat_and_lowMask hm]
  exact Nat.mod_lt _ (Nat.two_pow_pos k)

theorem and_lowMask_of_lt {n k : Nat} {m x : BitVec n} (hm : m.toNat = 2 ^ k - 1) (hx : x.toNat < 2 ^ k) :
    x &&& m = x :=
  BitVec.eq_of_toNat_eq ((toNat_and_lowMask hm x).trans (Nat.mod_eq_of_lt hx))

/-- Every operation uses all of `op`, the undefined ones included. -/
theorem opOf_and_usedBits (c : Word32) (op : Byte) : opOf (c &&& usedBits op) = opOf c := by
  have hones : opOf (usedBits op) = 0xFF#8 := by
    unfold usedBits
    split <;> rfl
  rw [opOf_and, hones, byte_and_ones]

/-! ### The decoder and the encoder are inverse to each other -/

/-- The decoder takes every operand of a well-formed instruction as the encoder wrote it (R57). -/
theorem decode_encode {i : Instr} (h : i.wellFormed = true) : decode (encode i) = .ok i := by
  cases i with
  | cfgpack f =>
    have hf : f &&& 0x03FF#16 = f := and_lowMask_of_lt (k := 10) rfl (of_decide_eq_true h)
    simp [decode, Instr.opcode, Instr.wOperand, hf]
  | init p =>
    have hp : p &&& 0x01#8 = p := and_lowMask_of_lt (k := 1) rfl (of_decide_eq_true h)
    simp [decode, Instr.opcode, Instr.vOperand, hp]
  | _ => simp [decode, Instr.opcode, Instr.vOperand, Instr.wOperand]

/-- The decoder drops the ignored bits of the operands that are read in part (R52). -/
theorem wellFormed_of_decode {c : Word32} {i : Instr} (h : decode c = .ok i) : i.wellFormed = true := by
  unfold decode at h
  split at h <;> cases h
  -- CFGPACK and INIT mask their operand; every other operand is as wide as its field
  case h_12 => exact decide_eq_true (toNat_and_lowMask_lt (k := 10) rfl (wOf c))
  case h_29 => exact decide_eq_true (toNat_and_lowMask_lt (k := 1) rfl (vOf c))
  all_goals rfl

/-- The decoder keeps `op`, and of the operand fields the bits that the operation uses (R49, R50). -/
theorem decode_fields {c : Word32} {i : Instr} (h : decode c = .ok i) :
    i.opcode = opOf c ∧ i.vOperand = vOf c &&& vOf (usedBits (opOf c)) ∧
      i.wOperand = wOf c &&& wOf (usedBits (opOf c)) := by
  unfold decode at h
  split at h <;> cases h
  all_goals
    rename_i hop
    rw [(BitVec.toNat_eq_nat.mp hop).2]
    simp [Instr.opcode, Instr.vOperand, Instr.wOperand, usedBits, vOf, wOf]

/-- Encoding what the decoder answers gives the command word with its ignored bits 0 (R52). -/
theorem encode_of_decode {c : Word32} {i : Instr} (h : decode c = .ok i) : encode i = c &&& usedBits (opOf c) := by
  obtain ⟨hop, hv, hw⟩ := decode_fields h
  refine eq_of_fields_eq ?_ ?_ ?_
  · rw [opOf_encode, opOf_and_usedBits, hop]
  · rw [vOf_encode, vOf_and, hv]
  · rw [wOf_encode, wOf_and, hw]

/-- Clearing the ignored bits of a command word changes neither the instruction it stands for nor its refusal (R52). -/
theorem decode_and_usedBits (c : Word32) : decode (c &&& usedBits (opOf c)) = decode c := by
  by_cases hc : opOf c ∈ definedOps
  · obtain ⟨i, hi⟩ := decode_legal hc
    rw [← encode_of_decode hi, decode_encode (wellFormed_of_decode hi), hi]
  · have hop : (c &&& usedBits (opOf c)).extractLsb' 24 8 = opOf c := opOf_and_usedBits c _
    rw [decode_illegal hc, decode_illegal (by rwa [hop]), hop, opOf]

end Sys2Proof

namespace Sys2Proof.Machine

/-- An idle block takes a command word that is no instruction, and answers that it is illegal (R55). -/
theorem step_of_refused {s : State} {c : Word32} {rest : List Input} {r : DecodeReject} (hp : s.pending = none)
    (hi : s.inputs = .command c :: rest) (hd : decode c = .error r) :
    step s = .next (illegalCommand { s with inputs := rest, rsp := none }) := by
  simp only [step, nextEvent, hi, hp, hd]

end Sys2Proof.Machine
end

