-- ==== Sys2Proof/Proofs/Encoding.lean ====
section
/-! PROOFS. The statements on the command word, the response and the host port (`30_encoding.md`). -/

namespace Sys2Proof.Proofs

open Sys2Proof Sys2Proof.Machine

/-- Settles O13: by the constructor; only CFGPACK and INIT use less than a whole operand field. -/
theorem decodeEncodeRoundTrip : Obligations.DecodeEncodeRoundTrip :=
  fun _ h => decode_encode h

/-- Settles O14: the decoder keeps the used bits of each field, and a word is its fields. -/
theorem encodeDecodeClearsIgnoredBits : Obligations.EncodeDecodeClearsIgnoredBits :=
  fun _ _ h => ⟨wellFormed_of_decode h, encode_of_decode h⟩

/-- Settles O16: both words decode as their common word of used bits does. -/
theorem ignoredBitsDoNotChangeTheOperation : Obligations.IgnoredBitsDoNotChangeTheOperation := by
  intro c c' hop hused
  calc decode c
    _ = decode (c &&& usedBits (opOf c)) := (decode_and_usedBits c).symm
    _ = decode (c' &&& usedBits (opOf c)) := congrArg decode hused
    _ = decode (c' &&& usedBits (opOf c')) := by rw [opOf, hop, ← opOf]
    _ = decode c' := decode_and_usedBits c'

/-- Settles O15: one lemma per direction; a word is not both decoded and refused. -/
theorem decodeRefusesExactlyUndefinedOps : Obligations.DecodeRefusesExactlyUndefinedOps := by
  refine ⟨fun c => ⟨fun ⟨i, hi⟩ => ?_, decode_legal⟩, fun c => ⟨fun hr hc => ?_, decode_illegal⟩, by decide, rfl⟩
  · by_contra hc
    simp [decode_illegal hc] at hi
  · obtain ⟨i, hi⟩ := decode_legal hc
    simp [hi] at hr

/-- Settles O6: a decoded command ends as operations do, and a refused one answers `IllegalCommand`. -/
theorem acceptedCommandAnswersOrWaits : Obligations.AcceptedCommandAnswersOrWaits := by
  intro s c rest hp hi
  cases hd : decode c with
  | ok i =>
    obtain ⟨t, he, hends⟩ := exec_ends i { s with inputs := rest, rsp := none }
    exact ⟨t, (step_of_accepted hp hi hd).trans he, hends.inputs_eq, hends.answers_or_waits rfl hp⟩
  | error r => exact ⟨_, step_of_refused hp hi hd, rfl, .inl ⟨nofun, hp⟩⟩

/-- Settles O10: every status is one of R119's numbers, and only `OK` carries a result. -/
theorem statusCodesAreSixAndFailuresCarryZero : Obligations.StatusCodesAreSixAndFailuresCarryZero := by
  refine ⟨fun v => ⟨rfl, rfl⟩, rfl, rfl, rfl, rfl, rfl, fun r => ?_⟩
  cases r with
  | ok v => exact ⟨Nat.zero_le 5, fun h => absurd rfl h⟩
  | err k => exact ⟨by cases k <;> decide, fun _ => rfl⟩

/-- Settles O12: closed words, decoded one by one. -/
theorem specWordsDecodeAsNamed : Obligations.SpecWordsDecodeAsNamed := by
  unfold Obligations.SpecWordsDecodeAsNamed
  decide

end Sys2Proof.Proofs
end

