-- ==== Sys2Proof/Proofs/CodecLaws.lean ====
section
/-! SUPPORT. The masks of the fields, what extraction sees of an insertion, and the pure operations of the codec family
as arithmetic on their operands (`40_codec.md` R59 to R64). -/

namespace Sys2Proof.Machine

/-! ### Masks -/

/-- The masks of two fields have no common bit (R64). -/
theorem fieldMask_and_fieldMask {f g : CfgField} (h : g ≠ f) : fieldMask f &&& fieldMask g = 0 := by
  have hapart := fields_apart h
  ext i hi
  rw [← BitVec.getLsbD_eq_getElem, BitVec.getLsbD_and, getLsbD_fieldMask, getLsbD_fieldMask]
  simp only [Bool.and_eq_false_iff, decide_eq_false_iff_not, BitVec.ofNat_eq_ofNat, BitVec.getElem_zero]
  omega

/-- No reserved bit lies in a field (R21, R64). -/
theorem fieldMask_and_reservedMask (f : CfgField) : fieldMask f &&& reservedMask = 0 := by
  cases f <;> decide

/-- The fields and the reserved bits are the whole word (R64). -/
theorem fieldMasks_or_reservedMask :
    fieldMask .sd ||| fieldMask .ie ||| fieldMask .pers ||| fieldMask .it ||| fieldMask .gain ||| reservedMask =
      0xFFFF := by
  decide

/-- A reserved bit lies in no field. -/
theorem not_in_field_of_reserved {i : Nat} (hi : reservedMask.getLsbD i = true) (f : CfgField) :
    ¬ (params.lo f ≤ i ∧ i < params.lo f + params.width f) := by
  have h := congrArg (·.getLsbD i) (fieldMask_and_reservedMask f)
  simpa [getLsbD_fieldMask, hi] using h

/-- A bit of the word is reserved or lies in a field. -/
theorem reserved_or_in_field {i : Nat} (hi : i < 16) :
    reservedMask.getLsbD i = true ∨ ∃ f, params.lo f ≤ i ∧ i < params.lo f + params.width f := by
  have hbit := congrArg (·.getLsbD i) fieldMasks_or_reservedMask
  have hones : (0xFFFF : Word).getLsbD i = true := BitVec.getLsbD_allOnes.trans (decide_eq_true hi)
  simp only [BitVec.getLsbD_or, getLsbD_fieldMask, hones, Bool.or_eq_true, decide_eq_true_eq] at hbit
  rcases hbit with ((((h | h) | h) | h) | h) | h
  exacts [.inr ⟨_, h⟩, .inr ⟨_, h⟩, .inr ⟨_, h⟩, .inr ⟨_, h⟩, .inr ⟨_, h⟩, .inl h]

/-- A bit of the word that lies in a field is a bit of the field's value. -/
theorem getLsbD_of_in_field {f : CfgField} {i : Nat} (hi : params.lo f ≤ i ∧ i < params.lo f + params.width f)
    (w : Word) : w.getLsbD i = (fieldExtract f w).getLsbD (i - params.lo f) := by
  obtain ⟨hlo, hup⟩ := hi
  have hw : i - params.lo f < params.width f := by omega
  rw [getLsbD_extract, Nat.add_sub_cancel' hlo, decide_eq_true hw, Bool.and_true]

/-- A word is its five fields and its reserved bits: the principle behind the laws of R64. -/
theorem eq_of_extract_eq {w w' : Word} (hfields : ∀ f, fieldExtract f w = fieldExtract f w')
    (hreserved : w &&& reservedMask = w' &&& reservedMask) : w = w' := by
  apply BitVec.eq_of_getLsbD_eq
  intro i hi
  rcases reserved_or_in_field hi with hr | ⟨f, hf⟩
  · simpa [hr] using congrArg (·.getLsbD i) hreserved
  · rw [getLsbD_of_in_field hf, getLsbD_of_in_field hf, hfields f]

/-! ### Extraction and insertion -/

section
variable {f g : CfgField} {w x : Word}

/-- An inserted value is extracted again (R64). -/
theorem extract_insert_same (hx : x.toNat < 2 ^ params.width f) : fieldExtract f (fieldInsert f w x) = x := by
  apply BitVec.eq_of_getLsbD_eq
  intro i _
  rw [getLsbD_extract, getLsbD_insert f w x hx]
  by_cases hi : i < params.width f
  · simp [hi]
  · have hout : x.getLsbD i = false :=
      Nat.testBit_lt_two_pow (hx.trans_le (Nat.pow_le_pow_right (by decide) (not_lt.mp hi)))
    simp [hi, hout]

/-- An insertion leaves the other fields (R64). -/
theorem extract_insert_other (h : g ≠ f) (hx : x.toNat < 2 ^ params.width f) :
    fieldExtract g (fieldInsert f w x) = fieldExtract g w := by
  have hapart := fields_apart h
  apply BitVec.eq_of_getLsbD_eq
  intro i _
  rw [getLsbD_extract, getLsbD_extract, getLsbD_insert f w x hx]
  by_cases hi : i < params.width g
  · rw [if_neg (by omega)]
  · simp [hi]

/-- An insertion leaves the reserved bits (R64). -/
theorem insert_and_reservedMask (hx : x.toNat < 2 ^ params.width f) :
    fieldInsert f w x &&& reservedMask = w &&& reservedMask := by
  apply BitVec.eq_of_getLsbD_eq
  intro i _
  rw [BitVec.getLsbD_and, BitVec.getLsbD_and, getLsbD_insert f w x hx]
  cases hr : reservedMask.getLsbD i with
  | true => rw [if_neg (not_in_field_of_reserved hr f)]
  | false => simp

/-- Extraction after an insertion, whichever the two fields are. -/
theorem extract_insert (hx : x.toNat < 2 ^ params.width f) :
    fieldExtract g (fieldInsert f w x) = if g = f then x else fieldExtract g w := by
  split
  case isTrue h => rw [h, extract_insert_same hx]
  case isFalse h => exact extract_insert_other h hx

/-- Inserting a field's own value changes nothing (R64). -/
theorem insert_extract (f : CfgField) (w : Word) : fieldInsert f w (fieldExtract f w) = w := by
  refine eq_of_extract_eq (fun g => ?_) (insert_and_reservedMask (extract_lt f w))
  by_cases h : g = f
  · rw [h, extract_insert_same (extract_lt f w)]
  · rw [extract_insert_other h (extract_lt f w)]

/-- Of two insertions into one field the later one counts (R64). -/
theorem insert_insert_same {x' : Word} (hx : x.toNat < 2 ^ params.width f) (hx' : x'.toNat < 2 ^ params.width f) :
    fieldInsert f (fieldInsert f w x) x' = fieldInsert f w x' := by
  refine eq_of_extract_eq (fun g => ?_) ?_
  · by_cases h : g = f <;> simp [extract_insert, hx, hx', h]
  · simp [insert_and_reservedMask, hx, hx']

/-- Insertions into two fields commute (R64). -/
theorem insert_insert_comm {y : Word} (h : g ≠ f) (hx : x.toNat < 2 ^ params.width f)
    (hy : y.toNat < 2 ^ params.width g) :
    fieldInsert f (fieldInsert g w y) x = fieldInsert g (fieldInsert f w x) y := by
  refine eq_of_extract_eq (fun k => ?_) ?_
  · rw [extract_insert hx, extract_insert hy, extract_insert hy, extract_insert hx]
    by_cases hk : k = f
    · simp [hk, h.symm]
    · simp [hk]
  · rw [insert_and_reservedMask hx, insert_and_reservedMask hy, insert_and_reservedMask hy, insert_and_reservedMask hx]

/-- Insertion into a field that is 0 needs no clearing. -/
theorem insert_of_extract_eq_zero (h : fieldExtract f w = 0) : fieldInsert f w x = w ||| x <<< params.lo f := by
  have hclear : w &&& ~~~ fieldMask f = w := by
    apply BitVec.eq_of_getLsbD_eq
    intro i hi
    rw [BitVec.getLsbD_and, BitVec.getLsbD_not, getLsbD_fieldMask]
    by_cases hin : params.lo f ≤ i ∧ i < params.lo f + params.width f
    · have hbit : w.getLsbD i = false := by
        rw [getLsbD_of_in_field hin, h]
        exact BitVec.getLsbD_zero
      rw [hbit, Bool.false_and]
    · simp [hin, hi]
  rw [fieldInsert, hclear]

end

theorem extract_zero (f : CfgField) : fieldExtract f 0 = 0 := by simp [fieldExtract]

/-- Insertion into the word 0 puts the value at its place. -/
theorem insert_zero (f : CfgField) (x : Word) : fieldInsert f 0 x = x <<< params.lo f :=
  (insert_of_extract_eq_zero (extract_zero f)).trans BitVec.zero_or

/-! ### Packing and unpacking -/

/-- The number of two parts put together. -/
theorem toNat_append_eq_add {m n : Nat} (x : BitVec m) (y : BitVec n) :
    (x ++ y).toNat = x.toNat * 2 ^ n + y.toNat := by
  rw [BitVec.toNat_append, ← Nat.shiftLeft_add_eq_or_of_lt y.isLt, Nat.shiftLeft_eq]

/-- A value as wide as a field fits it. -/
theorem setWidth_fits (f : CfgField) {n : Nat} (hn : n = params.width f) (x : BitVec n) :
    (x.setWidth 16).toNat < 2 ^ params.width f := by
  rw [BitVec.toNat_setWidth, ← hn]
  exact (Nat.mod_le _ _).trans_lt x.isLt

/-- A field value keeps its number in the field's own width. -/
theorem toNat_setWidth_extract (f : CfgField) (w : Word) :
    ((fieldExtract f w).setWidth (params.width f)).toNat = w.toNat / 2 ^ params.lo f % 2 ^ params.width f := by
  rw [BitVec.toNat_setWidth, Nat.mod_eq_of_lt (extract_lt f w), extract_toNat]

/-- Narrowing a field value to its field's width loses nothing. -/
theorem setWidth_setWidth_extract (f : CfgField) (w : Word) :
    ((fieldExtract f w).setWidth (params.width f)).setWidth 16 = fieldExtract f w := by
  have hlt := extract_lt f w
  apply BitVec.eq_of_toNat_eq
  rw [BitVec.toNat_setWidth, BitVec.toNat_setWidth, Nat.mod_eq_of_lt hlt, Nat.mod_eq_of_lt (fieldExtract f w).isLt]

section
variable (sd ie : BitVec 1) (pers : BitVec 2) (it : BitVec 4) (gain : BitVec 2)

/-- The five values of a word fit their fields (R63). -/
theorem values_fit : (sd.setWidth 16).toNat < 2 ^ params.width .sd ∧
    (ie.setWidth 16).toNat < 2 ^ params.width .ie ∧ (pers.setWidth 16).toNat < 2 ^ params.width .pers ∧
    (it.setWidth 16).toNat < 2 ^ params.width .it ∧ (gain.setWidth 16).toNat < 2 ^ params.width .gain :=
  ⟨setWidth_fits .sd rfl sd, setWidth_fits .ie rfl ie, setWidth_fits .pers rfl pers, setWidth_fits .it rfl it,
    setWidth_fits .gain rfl gain⟩

/-- Packing is insertion of the five values, one after the other, into the word 0 (R63). -/
theorem pack_eq_insert : pack sd ie pers it gain =
    fieldInsert .gain (fieldInsert .it (fieldInsert .pers (fieldInsert .ie (fieldInsert .sd 0 (sd.setWidth 16))
      (ie.setWidth 16)) (pers.setWidth 16)) (it.setWidth 16)) (gain.setWidth 16) := by
  rw [insert_of_extract_eq_zero (f := .gain), insert_of_extract_eq_zero (f := .it),
    insert_of_extract_eq_zero (f := .pers), insert_of_extract_eq_zero (f := .ie), insert_zero, pack]
  -- each insertion finds its field 0: the ones before it went into other fields
  all_goals simp only [extract_insert, values_fit sd ie pers it gain, reduceCtorEq, if_false, extract_zero]

/-- Each value of a packed word is extracted again (R64). -/
theorem extract_pack : fieldExtract .sd (pack sd ie pers it gain) = sd.setWidth 16 ∧
    fieldExtract .ie (pack sd ie pers it gain) = ie.setWidth 16 ∧
    fieldExtract .pers (pack sd ie pers it gain) = pers.setWidth 16 ∧
    fieldExtract .it (pack sd ie pers it gain) = it.setWidth 16 ∧
    fieldExtract .gain (pack sd ie pers it gain) = gain.setWidth 16 := by
  simp only [pack_eq_insert, extract_insert, values_fit sd ie pers it gain, reduceCtorEq, if_false, if_true, and_self]

/-- Packing sets no reserved bit (R63). -/
theorem pack_and_reservedMask : pack sd ie pers it gain &&& reservedMask = 0 := by
  simp only [pack_eq_insert, insert_and_reservedMask, values_fit sd ie pers it gain]
  exact BitVec.zero_and

/-- A packed word as a number: each value times the place of its field (R18, R63). -/
theorem pack_toNat : (pack sd ie pers it gain).toNat =
    sd.toNat + 2 * ie.toNat + 16 * pers.toNat + 64 * it.toNat + 2048 * gain.toNat := by
  have hsd := sd.isLt
  have hie := ie.isLt
  have hpers := pers.isLt
  have hit := it.isLt
  simp only [pack_eq_insert, insert_toNat, values_fit sd ie pers it gain]
  simp only [replaceBits, params, BitVec.toNat_setWidth, BitVec.ofNat_eq_ofNat, BitVec.toNat_ofNat, Nat.reducePow,
    Nat.reduceAdd]
  omega

end

/-- Clearing the reserved bits leaves every field (R18, R21). -/
theorem extract_and_not_reservedMask (f : CfgField) (w : Word) :
    fieldExtract f (w &&& ~~~ reservedMask) = fieldExtract f w := by
  apply BitVec.eq_of_getLsbD_eq
  intro i _
  rw [getLsbD_extract, getLsbD_extract, BitVec.getLsbD_and, BitVec.getLsbD_not]
  by_cases hi : i < params.width f
  · have hfit := field_fits_word f
    have hr : reservedMask.getLsbD (params.lo f + i) = false :=
      Bool.eq_false_iff.mpr fun hr => not_in_field_of_reserved hr f (by omega)
    have h16 : params.lo f + i < 16 := by omega
    rw [hr, decide_eq_true h16, Bool.not_false, Bool.and_self, Bool.and_true]
  · simp [hi]

/-- Packing the fields of a word clears its reserved bits (R64). -/
theorem pack_extract (w : Word) :
    pack ((fieldExtract .sd w).setWidth 1) ((fieldExtract .ie w).setWidth 1) ((fieldExtract .pers w).setWidth 2)
      ((fieldExtract .it w).setWidth 4) ((fieldExtract .gain w).setWidth 2) = w &&& ~~~ reservedMask := by
  refine eq_of_extract_eq (fun f => ?_) ?_
  · obtain ⟨hsd, hie, hpers, hit, hgain⟩ := extract_pack ((fieldExtract .sd w).setWidth 1)
      ((fieldExtract .ie w).setWidth 1) ((fieldExtract .pers w).setWidth 2) ((fieldExtract .it w).setWidth 4)
      ((fieldExtract .gain w).setWidth 2)
    rw [extract_and_not_reservedMask, ← setWidth_setWidth_extract f w]
    cases f with
    | sd => exact hsd
    | ie => exact hie
    | pers => exact hpers
    | it => exact hit
    | gain => exact hgain
  · rw [pack_and_reservedMask, BitVec.and_assoc, BitVec.not_and_self]
    exact BitVec.and_zero.symm

/-- The record of a word as a number (R51, R72). -/
theorem unpackRecord_toNat (w : Word) : (unpackRecord w).toNat =
    w.toNat % 2 + 2 * (w.toNat / 2 % 2) + 4 * (w.toNat / 16 % 4) + 16 * (w.toNat / 64 % 16)
      + 256 * (w.toNat / 2048 % 4) := by
  have hsd := toNat_setWidth_extract .sd w
  have hie := toNat_setWidth_extract .ie w
  have hpers := toNat_setWidth_extract .pers w
  have hit := toNat_setWidth_extract .it w
  have hgain := toNat_setWidth_extract .gain w
  simp only [params, Nat.reducePow, Nat.div_one] at hsd hie hpers hit hgain
  rw [unpackRecord, toNat_append_eq_add, toNat_append_eq_add, toNat_append_eq_add, toNat_append_eq_add, hsd, hie,
    hpers, hit, hgain]
  omega

/-- The word of a record as a number (R78): the parts of the record at the places of their fields. -/
theorem packRecord_toNat (r : BitVec 10) : (packRecord r).toNat =
    r.toNat % 2 + 2 * (r.toNat / 2 % 2) + 16 * (r.toNat / 4 % 4) + 64 * (r.toNat / 16 % 16)
      + 2048 * (r.toNat / 256 % 4) := by
  simp [packRecord, pack_toNat, Nat.shiftRight_eq_div_pow]

/-! ### The operations -/

/-- Answering a value, in arithmetic (R8, R48). -/
theorem finish_of_toNat {n k : Nat} {x : BitVec n} (h : x.toNat = k) (s : State) :
    finish (x.setWidth 32) s = { s with rsp := some (.ok (BitVec.ofNat 32 k)) } := by
  rw [← h, BitVec.ofNat_toNat]
  rfl

/-- An X-operation returns its field (R60). -/
theorem extractField_eq (f : CfgField) (w : Word) (s : State) : extractField f w s =
    { s with rsp := some (.ok (BitVec.ofNat 32 (w.toNat / 2 ^ params.lo f % 2 ^ params.width f))) } :=
  finish_of_toNat (extract_toNat f w) s

/-- An I-operation whose operand fits replaces its field (R61, R62). -/
theorem insertField_of_fits {f : CfgField} {v : Byte} (hv : v.toNat < 2 ^ params.width f) (w : Word) (s : State) :
    insertField f v w s =
      { s with rsp := some (.ok (BitVec.ofNat 32 (replaceBits (params.lo f) (params.width f) v.toNat w.toNat))) } := by
  have hwide : (v.setWidth 16).toNat = v.toNat := BitVec.toNat_setWidth_of_le (by decide)
  have hins := insert_toNat f w (v.setWidth 16) (by rwa [hwide])
  rw [hwide] at hins
  rw [insertField, if_pos (show fitsField f v = true from decide_eq_true hv), finish_of_toNat hins]

/-- An I-operation whose operand does not fit is rejected (R62). -/
theorem insertField_of_wide {f : CfgField} {v : Byte} (hv : 2 ^ params.width f ≤ v.toNat) (w : Word) (s : State) :
    insertField f v w s = { s with rsp := some (.err .invalidParameter) } := by
  rw [insertField, if_neg (by simpa [fitsField] using hv)]
  rfl

end Sys2Proof.Machine
end

