-- ==== Sys2Proof/Proofs/Codec.lean ====
section
/-! PROOFS. The statements on the pure operations over the configuration word (`40_codec.md`). -/

namespace Sys2Proof.Proofs

open Sys2Proof Sys2Proof.Machine

/-- Settles O17: the five X-operations are one operation over their field. -/
theorem extractOpsReturnTheField : Obligations.ExtractOpsReturnTheField := by
  intro w s
  refine ⟨?_, ?_, ?_, ?_, ?_⟩
  · refine congrArg Host.Outcome.next ((extractField_eq .sd w s).trans ?_)
    simp [params]
  · exact congrArg Host.Outcome.next (extractField_eq .ie w s)
  · exact congrArg Host.Outcome.next (extractField_eq .pers w s)
  · exact congrArg Host.Outcome.next (extractField_eq .it w s)
  · exact congrArg Host.Outcome.next (extractField_eq .gain w s)

/-- Settles O18: the five I-operations are one operation over their field. -/
theorem insertOpsReplaceTheField : Obligations.InsertOpsReplaceTheField := by
  intro v w s
  exact ⟨fun h => congrArg Host.Outcome.next (insertField_of_fits (f := .sd) h w s),
    fun h => congrArg Host.Outcome.next (insertField_of_fits (f := .ie) h w s),
    fun h => congrArg Host.Outcome.next (insertField_of_fits (f := .pers) h w s),
    fun h => congrArg Host.Outcome.next (insertField_of_fits (f := .it) h w s),
    fun h => congrArg Host.Outcome.next (insertField_of_fits (f := .gain) h w s)⟩

/-- Settles O19: the bounds are the numbers of values of the fields. -/
theorem insertOpsRejectWideOperands : Obligations.InsertOpsRejectWideOperands := by
  intro v w s
  have reject (f : CfgField) (h : 2 ^ params.width f ≤ v.toNat) :
      (.next (insertField f v w s) : Host.Outcome State Fault Refusal) =
        .next { s with rsp := some (.err .invalidParameter) } := by rw [insertField_of_wide h]
  exact ⟨fun h => ⟨reject .sd h, reject .ie h⟩, fun h => ⟨reject .pers h, reject .gain h⟩, reject .it⟩

/-- Settles O20: the record and the word as numbers; CFGPACK keeps the low 10 bits of its operand. -/
theorem wholeWordOperationsUnpackAndPack : Obligations.WholeWordOperationsUnpackAndPack := by
  refine ⟨cfgDefault_eq_pack, fun w s => ⟨?_, ?_, rfl⟩⟩
  · exact congrArg Host.Outcome.next (finish_of_toNat (unpackRecord_toNat w) s)
  · refine congrArg Host.Outcome.next (finish_of_toNat ?_ s)
    rw [packRecord_toNat, BitVec.toNat_setWidth]
    omega

/-- Settles O21: laws 4 to 6 and half of law 7 follow from the first three, as a word is its fields and its reserved
bits. -/
theorem packUnpackLaws : Obligations.PackUnpackLaws :=
  ⟨fun _ _ _ hx => extract_insert_same hx, fun _ _ _ _ h hx => extract_insert_other h hx,
    fun _ _ _ hx => insert_and_reservedMask hx, insert_extract, fun _ _ _ _ hx hx' => insert_insert_same hx hx',
    fun _ _ _ _ _ h hx hy => insert_insert_comm h hx hy, extract_pack, pack_extract,
    fun _ _ h => fieldMask_and_fieldMask h, fieldMask_and_reservedMask, fieldMasks_or_reservedMask⟩

end Sys2Proof.Proofs
end

