-- ==== Sys2Proof/Proofs/TranslationLaws.lean ====
section
/-! SUPPORT. The two integration-time translations by the rows of their table: on a row each gives the row's other
entry, off the table each gives its sentinel (`41_it_translation.md` R81 to R84). -/

namespace Sys2Proof.Machine

/-- The logical indices of the table are 0 to 5 (R80). -/
theorem mem_itTable_indices {l : Byte} : l ∈ itTable.map Prod.fst ↔ l.toNat ≤ 5 := by
  simp only [itTable, List.map_cons, List.map_nil, List.mem_cons, List.not_mem_nil, or_false]
  bv_omega

/-- The patterns of the table, as bytes (R81). -/
theorem itTable_patterns : itTable.map (fun row => row.2.setWidth 8) = ([12, 8, 0, 1, 2, 3] : List Byte) := rfl

/-- An index from 0 to 5 has a row. -/
theorem exists_row_of_index {l : Byte} (h : l.toNat ≤ 5) : ∃ row ∈ itTable, row.1 = l :=
  List.mem_map.mp (mem_itTable_indices.mpr h)

/-- One of the six patterns has a row. -/
theorem exists_row_of_pattern {p : Byte} (h : p ∈ ([12, 8, 0, 1, 2, 3] : List Byte)) :
    ∃ row ∈ itTable, row.2.setWidth 8 = p :=
  List.mem_map.mp (itTable_patterns ▸ h)

/-- On a row, ITENC gives its pattern. -/
theorem itEncPort_of_row : ∀ row ∈ itTable, itEncPort row.1 = row.2 :=
  List.forall_iff_forall_mem.mp (by decide)

/-- On a row, ITDEC gives its index. -/
theorem itDecPort_of_row : ∀ row ∈ itTable, itDecPort (row.2.setWidth 8) = row.1.setWidth 3 :=
  List.forall_iff_forall_mem.mp (by decide)

/-- Above 5, ITENC gives the physical sentinel. -/
theorem itEncPort_of_gt {l : Byte} (h : 5 < l.toNat) : itEncPort l = 15 := by
  have hnone : itTable.find? (fun row => row.1 == l) = none := by
    refine List.find?_eq_none.mpr fun row hrow heq => ?_
    exact absurd (mem_itTable_indices.mp (List.mem_map.mpr ⟨row, hrow, beq_iff_eq.mp heq⟩)) (not_le.mpr h)
  rw [itEncPort, itEnc, hnone]
  rfl

/-- On a pattern that is not in the table, ITDEC gives the logical sentinel. -/
theorem itDecPort_of_not_mem {p : Byte} (h : p ∉ ([12, 8, 0, 1, 2, 3] : List Byte)) : itDecPort p = 6 := by
  have hnone : itTable.find? (fun row => row.2.setWidth 8 == p) = none := by
    refine List.find?_eq_none.mpr fun row hrow heq => h ?_
    exact itTable_patterns ▸ List.mem_map.mpr ⟨row, hrow, beq_iff_eq.mp heq⟩
  rw [itDecPort, itDec, hnone]
  rfl

/-- The physical sentinel is no pattern of the table (R82). -/
theorem itEncPort_eq_sentinel_iff (l : Byte) : itEncPort l = 15 ↔ 5 < l.toNat := by
  refine ⟨fun h => not_le.mp fun hle => ?_, itEncPort_of_gt⟩
  obtain ⟨row, hrow, rfl⟩ := exists_row_of_index hle
  have hvalid : ∀ row ∈ itTable, row.2 ≠ 15 := List.forall_iff_forall_mem.mp (by decide)
  exact hvalid row hrow (itEncPort_of_row row hrow ▸ h)

/-- The logical sentinel is no index of the table (R82). -/
theorem itDecPort_eq_sentinel_iff (p : Byte) : itDecPort p = 6 ↔ p ∉ ([12, 8, 0, 1, 2, 3] : List Byte) := by
  refine ⟨fun h hp => ?_, itDecPort_of_not_mem⟩
  obtain ⟨row, hrow, rfl⟩ := exists_row_of_pattern hp
  have hvalid : ∀ row ∈ itTable, row.1.setWidth 3 ≠ (6 : BitVec 3) := List.forall_iff_forall_mem.mp (by decide)
  exact hvalid row hrow (itDecPort_of_row row hrow ▸ h)

/-- Decoding undoes encoding on the six indices (R85). -/
theorem itDecPort_itEncPort {l : Byte} (h : l.toNat ≤ 5) : itDecPort ((itEncPort l).setWidth 8) = l.setWidth 3 := by
  obtain ⟨row, hrow, rfl⟩ := exists_row_of_index h
  rw [itEncPort_of_row row hrow, itDecPort_of_row row hrow]

/-- Encoding undoes decoding on the six patterns (R85). -/
theorem itEncPort_itDecPort {p : Byte} (h : p ∈ ([12, 8, 0, 1, 2, 3] : List Byte)) :
    (itEncPort ((itDecPort p).setWidth 8)).setWidth 8 = p := by
  obtain ⟨row, hrow, rfl⟩ := exists_row_of_pattern h
  have hfits : ∀ row ∈ itTable, (row.1.setWidth 3).setWidth 8 = row.1 := List.forall_iff_forall_mem.mp (by decide)
  rw [itDecPort_of_row row hrow, hfits row hrow, itEncPort_of_row row hrow]

/-- ITENC in numbers (R83). -/
theorem itEncPort_toNat (l : Byte) : (itEncPort l).toNat = patternOf l.toNat := by
  by_cases h : l.toNat ≤ 5
  · obtain ⟨row, hrow, rfl⟩ := exists_row_of_index h
    have hrows : ∀ row ∈ itTable, row.2.toNat = patternOf row.1.toNat := List.forall_iff_forall_mem.mp (by decide)
    rw [itEncPort_of_row row hrow, hrows row hrow]
  · have hsentinel : patternOf l.toNat = 15 := by
      unfold patternOf
      split_ifs <;> omega
    rw [itEncPort_of_gt (not_le.mp h), hsentinel]
    rfl

/-- ITDEC in numbers (R84). -/
theorem itDecPort_toNat (p : Byte) : (itDecPort p).toNat = indexOf p.toNat := by
  by_cases h : p ∈ ([12, 8, 0, 1, 2, 3] : List Byte)
  · obtain ⟨row, hrow, rfl⟩ := exists_row_of_pattern h
    have hrows : ∀ row ∈ itTable, (row.1.setWidth 3).toNat = indexOf (row.2.setWidth 8).toNat :=
      List.forall_iff_forall_mem.mp (by decide)
    rw [itDecPort_of_row row hrow, hrows row hrow]
  · have hsentinel : indexOf p.toNat = 6 := by
      simp only [List.mem_cons, List.not_mem_nil, or_false, not_or] at h
      unfold indexOf
      split_ifs <;> bv_omega
    rw [itDecPort_of_not_mem h, hsentinel]
    rfl

end Sys2Proof.Machine
end

