-- ==== Sys2Proof/Proofs/Translations.lean ====
section
/-! PROOFS. The statements on the integration-time translations (`41_it_translation.md`). -/

namespace Sys2Proof.Proofs

open Sys2Proof Sys2Proof.Machine

/-- Settles O23: each operation answers its translation; the statement compares the byte where `patternOf` and `indexOf`
compare its number. -/
theorem translationsFollowTheTable : Obligations.TranslationsFollowTheTable := by
  intro v s
  constructor
  · refine congrArg Host.Outcome.next ((finish_of_toNat (itEncPort_toNat v) s).trans ?_)
    simp [patternOf, ← BitVec.toNat_inj]
  · refine congrArg Host.Outcome.next ((finish_of_toNat (itDecPort_toNat v) s).trans ?_)
    simp [indexOf, ← BitVec.toNat_inj]

/-- Settles O24: the laws over all indices and patterns go by the rows of the table; the fourth and the fifth are about
named ones. -/
theorem translationsAreInverseOffTheSentinels : Obligations.TranslationsAreInverseOffTheSentinels :=
  ⟨fun _ h => itDecPort_itEncPort h, fun _ h => itEncPort_itDecPort h, fun _ _ h => itDecPort_of_not_mem h,
    by decide, by decide, itEncPort_eq_sentinel_iff, itDecPort_eq_sentinel_iff⟩

end Sys2Proof.Proofs
end

