-- ==== Sys2Proof/Proofs/Float32Laws.lean ====
section
/-! SUPPORT. Binary32 patterns in the order of their magnitudes, and what the rounded product is next to the exact one
(`42_lux.md` R90, R93, R94). -/

namespace Sys2Proof.Machine

/-! ### The code of a pattern -/

/-- Exponent and fraction as one number, which orders the patterns as their magnitudes do. -/
def f32Code (a : Word32) : Nat := f32Exponent a * 2 ^ 23 + f32Fraction a

theorem f32Exponent_lt (a : Word32) : f32Exponent a < 2 ^ 8 := (a.extractLsb' 23 8).isLt

theorem f32Fraction_lt (a : Word32) : f32Fraction a < 2 ^ 23 := (a.extractLsb' 0 23).isLt

/-- A pattern is its sign above its code. -/
theorem toNat_eq_sign_code (a : Word32) : a.toNat = (f32Sign a).toNat * 2 ^ 31 + f32Code a := by
  have hlt := a.isLt
  simp only [f32Code, f32Sign_eq, f32Exponent_eq, f32Fraction_eq, BitVec.extractLsb'_toNat, Nat.shiftRight_eq_div_pow]
  omega

/-- A pattern of sign 0 is its code. -/
theorem toNat_eq_f32Code {a : Word32} (h : f32Sign a = 0) : a.toNat = f32Code a := by
  rw [toNat_eq_sign_code, h, BitVec.ofNat_eq_ofNat, BitVec.toNat_zero, Nat.zero_mul, Nat.zero_add]

/-- A sign and a code in range make a pattern of that sign and code. -/
theorem sign_code_of_toNat {a : Word32} {s : BitVec 1} {c : Nat} (h : a.toNat = s.toNat * 2 ^ 31 + c)
    (hc : c < 2 ^ 31) : f32Sign a = s ∧ f32Code a = c := by
  have hsc := toNat_eq_sign_code a
  have hs := s.isLt
  have hexp := f32Exponent_lt a
  have hfrac := f32Fraction_lt a
  obtain ⟨hsign, hcode⟩ : (f32Sign a).toNat = s.toNat ∧ f32Code a = c := by
    unfold f32Code at *
    omega
  exact ⟨BitVec.eq_of_toNat_eq hsign, hcode⟩

/-- A code in range is the pattern of sign 0 and that code. -/
theorem sign_code_ofNat {c : Nat} (hc : c < 2 ^ 31) :
    f32Sign (BitVec.ofNat 32 c) = 0 ∧ f32Code (BitVec.ofNat 32 c) = c :=
  sign_code_of_toNat (by rw [BitVec.toNat_ofNat, Nat.mod_eq_of_lt (by omega), BitVec.ofNat_eq_ofNat, BitVec.toNat_zero,
    Nat.zero_mul, Nat.zero_add]) hc

theorem f32Finite_iff (a : Word32) : f32Finite a = true ↔ f32Code a < 255 * 2 ^ 23 := by
  have hexp := f32Exponent_lt a
  have hfrac := f32Fraction_lt a
  rw [f32Finite_eq, bne_iff_ne, f32Code]
  omega

theorem f32Fraction_eq_code_mod (a : Word32) : f32Fraction a = f32Code a % 2 ^ 23 := by
  rw [f32Code, Nat.mul_add_mod_self_right, Nat.mod_eq_of_lt (f32Fraction_lt a)]

/-! ### Magnitudes -/

theorem f32Magnitude_lt (a : Word32) : f32Magnitude a < 2 ^ (f32Exponent a + 23) := by
  have hfrac := f32Fraction_lt a
  rw [f32Magnitude_eq]
  split
  · exact hfrac.trans_le (Nat.pow_le_pow_right two_pos (Nat.le_add_left _ _))
  · calc _ < 2 ^ 24 * 2 ^ (f32Exponent a - 1) := Nat.mul_lt_mul_of_pos_right (by omega) (Nat.two_pow_pos _)
      _ = 2 ^ (f32Exponent a + 23) := by rw [← pow_add]; congr 1; omega

theorem le_f32Magnitude {a : Word32} (h : f32Exponent a ≠ 0) : 2 ^ (f32Exponent a + 22) ≤ f32Magnitude a := by
  rw [f32Magnitude_eq, if_neg h, show f32Exponent a + 22 = 23 + (f32Exponent a - 1) by omega, pow_add]
  exact Nat.mul_le_mul_right _ (Nat.le_add_right _ _)

/-- A greater code is a greater magnitude: by the exponents, and by the fractions when those are equal. -/
theorem f32Magnitude_lt_of_code_lt {a b : Word32} (h : f32Code a < f32Code b) : f32Magnitude a < f32Magnitude b := by
  have ha := f32Fraction_lt a
  have hb := f32Fraction_lt b
  unfold f32Code at h
  rcases Nat.lt_or_ge (f32Exponent a) (f32Exponent b) with hlt | hge
  · calc f32Magnitude a < 2 ^ (f32Exponent a + 23) := f32Magnitude_lt a
      _ ≤ 2 ^ (f32Exponent b + 22) := Nat.pow_le_pow_right two_pos (by omega)
      _ ≤ f32Magnitude b := le_f32Magnitude (by omega)
  · have he : f32Exponent a = f32Exponent b := by omega
    rw [f32Magnitude_eq, f32Magnitude_eq, he]
    split
    · omega
    · exact Nat.mul_lt_mul_of_pos_right (by omega) (Nat.two_pow_pos _)

theorem f32Magnitude_le_of_code_le {a b : Word32} (h : f32Code a ≤ f32Code b) : f32Magnitude a ≤ f32Magnitude b := by
  rcases h.lt_or_eq with hlt | heq
  · exact (f32Magnitude_lt_of_code_lt hlt).le
  · have ha := f32Fraction_lt a
    have hb := f32Fraction_lt b
    unfold f32Code at heq
    rw [f32Magnitude_eq, f32Magnitude_eq, show f32Exponent a = f32Exponent b by omega,
      show f32Fraction a = f32Fraction b by omega]

/-- A pattern is known by its sign and its magnitude. -/
theorem eq_of_sign_magnitude {a b : Word32} (hs : f32Sign a = f32Sign b) (hm : f32Magnitude a = f32Magnitude b) :
    a = b := by
  have hcode : f32Code a = f32Code b :=
    le_antisymm (not_lt.mp fun h => (f32Magnitude_lt_of_code_lt h).ne' hm)
      (not_lt.mp fun h => (f32Magnitude_lt_of_code_lt h).ne hm)
  refine BitVec.eq_of_toNat_eq ?_
  rw [toNat_eq_sign_code, toNat_eq_sign_code b, hs, hcode]

/-- The spacing of the format: a magnitude is a multiple of `2^j` or below the `2^23`rd one. -/
theorem dvd_f32Magnitude_or_lt (a : Word32) (j : Nat) : 2 ^ j ∣ f32Magnitude a ∨ f32Magnitude a < 2 ^ 23 * 2 ^ j := by
  by_cases hj : f32Exponent a ≤ j
  · right
    calc f32Magnitude a < 2 ^ (f32Exponent a + 23) := f32Magnitude_lt a
      _ ≤ 2 ^ (23 + j) := Nat.pow_le_pow_right two_pos (by omega)
      _ = 2 ^ 23 * 2 ^ j := pow_add ..
  · left
    rw [f32Magnitude_eq, if_neg (by omega)]
    exact Dvd.dvd.mul_left (pow_dvd_pow 2 (by omega)) _

/-- The magnitude of the `q`th pattern past exponent `j`. The next exponent's first pattern is the last of them. -/
theorem f32Magnitude_of_code {a : Word32} {j q : Nat} (hc : f32Code a = j * 2 ^ 23 + q) (hq : q ≤ 2 ^ 24)
    (hj : j = 0 ∨ 2 ^ 23 ≤ q) : f32Magnitude a = q * 2 ^ j := by
  have hfrac := f32Fraction_lt a
  rw [f32Code] at hc
  rw [f32Magnitude_eq]
  split
  · obtain rfl : j = 0 := by omega
    omega
  · rcases Nat.lt_or_ge q (2 ^ 24) with hlt | hge
    · rw [show f32Exponent a - 1 = j by omega, show 2 ^ 23 + f32Fraction a = q by omega]
    · rw [show f32Exponent a - 1 = j + 1 by omega, show 2 ^ 23 + f32Fraction a = 2 ^ 23 by omega,
        show q = 2 ^ 23 * 2 by omega, pow_succ']
      ring

/-! ### Conversion of a count -/

/-- The pattern of a count that is not 0 is the count with its top bit moved to place 23, past exponent `126 + top`. -/
theorem sign_code_u16ToF32 {n : Word} (h : n ≠ 0) :
    f32Sign (u16ToF32 n) = 0 ∧
    f32Code (u16ToF32 n) = (126 + n.toNat.log2) * 2 ^ 23 + n.toNat * 2 ^ (23 - n.toNat.log2) ∧
    n.toNat.log2 ≤ 15 ∧ 2 ^ 23 ≤ n.toNat * 2 ^ (23 - n.toNat.log2) ∧ n.toNat * 2 ^ (23 - n.toNat.log2) < 2 ^ 24 := by
  have h0 : n.toNat ≠ 0 := BitVec.toNat_ne_iff_ne.mpr h
  have htop : n.toNat.log2 < 16 := (Nat.log2_lt h0).mpr n.isLt
  have hlow : 2 ^ 23 ≤ n.toNat * 2 ^ (23 - n.toNat.log2) := by
    calc 2 ^ 23 = 2 ^ n.toNat.log2 * 2 ^ (23 - n.toNat.log2) := by rw [← pow_add]; congr 1; omega
      _ ≤ _ := Nat.mul_le_mul_right _ (Nat.log2_self_le h0)
  have hhigh : n.toNat * 2 ^ (23 - n.toNat.log2) < 2 ^ 24 := by
    calc _ < 2 ^ (n.toNat.log2 + 1) * 2 ^ (23 - n.toNat.log2) :=
          Nat.mul_lt_mul_of_pos_right Nat.lt_log2_self (Nat.two_pow_pos _)
      _ = 2 ^ 24 := by rw [← pow_add]; congr 1; omega
  rw [u16ToF32_eq, if_neg h]
  generalize n.toNat * 2 ^ (23 - n.toNat.log2) = m at *
  obtain ⟨hsign, hcode⟩ := sign_code_ofNat (c := (127 + n.toNat.log2) * 2 ^ 23 + (m - 2 ^ 23)) (by omega)
  exact ⟨hsign, hcode.trans (by omega), by omega, hlow, hhigh⟩

theorem f32Sign_u16ToF32 (n : Word) : f32Sign (u16ToF32 n) = 0 := by
  by_cases h : n = 0
  · subst h; decide
  · exact (sign_code_u16ToF32 h).1

theorem f32Finite_u16ToF32 (n : Word) : f32Finite (u16ToF32 n) = true := by
  by_cases h : n = 0
  · subst h; decide
  · obtain ⟨-, hcode, htop, -, hhigh⟩ := sign_code_u16ToF32 h
    rw [f32Finite_iff, hcode]
    omega

theorem f32Magnitude_u16ToF32 (n : Word) : f32Magnitude (u16ToF32 n) = n.toNat * 2 ^ 149 := by
  by_cases h : n = 0
  · subst h; decide
  · obtain ⟨-, hcode, htop, hlow, hhigh⟩ := sign_code_u16ToF32 h
    rw [f32Magnitude_of_code hcode hhigh.le (.inr hlow), mul_assoc, ← pow_add]
    congr 2
    omega

/-! ### Rounding -/

/-- How many bits the rounding of R94 drops: all but 24, and at least those below 2^-149. -/
def roundingShift (n : Nat) : Nat := max (bitLength n - 24) 149

theorem roundMagnitude_eq_min (n : Nat) : roundMagnitude n =
    min ((roundingShift n - 149) * 2 ^ 23 + roundShift n (roundingShift n)) (255 * 2 ^ 23) := rfl

theorem le_roundingShift (n : Nat) : 149 ≤ roundingShift n := le_max_right _ _

theorem lt_of_roundingShift (n : Nat) : n < 2 ^ 24 * 2 ^ roundingShift n := by
  rw [← pow_add]
  exact (lt_two_pow_bitLength n).trans_le (Nat.pow_le_pow_right two_pos (by unfold roundingShift; omega))

/-- A number rounded to more than one unit of 2^-149 keeps 24 significant bits. -/
theorem le_of_roundingShift_ne {n : Nat} (h : roundingShift n ≠ 149) : 2 ^ 23 * 2 ^ roundingShift n ≤ n := by
  have hbits : roundingShift n = bitLength n - 24 ∧ 149 < bitLength n - 24 := by unfold roundingShift at *; omega
  have hlen : ¬ bitLength n ≤ bitLength n - 1 := by omega
  rw [← pow_add, show 23 + roundingShift n = bitLength n - 1 by omega]
  exact not_lt.mp fun hlt => hlen (bitLength_le hlt)

/-- A number not below `m` units is not rounded below `m`. -/
theorem le_roundShift {n k m : Nat} (h : m * 2 ^ k ≤ n) : m ≤ roundShift n k := by
  have hm : m ≤ n / 2 ^ k := (Nat.le_div_iff_mul_le (Nat.two_pow_pos k)).mpr h
  unfold roundShift
  dsimp only
  split_ifs <;> omega

/-- A multiple of the unit as near as the rounded one, and other than it, is a tie: the rounded one is even. -/
theorem roundShift_even_of_tie {n k m : Nat} (hm : m ≠ roundShift n k)
    (h : ((n : Int) - (roundShift n k * 2 ^ k : Nat)).natAbs = ((n : Int) - (m * 2 ^ k : Nat)).natAbs) :
    roundShift n k % 2 = 0 := by
  obtain ⟨hhalf, heven⟩ := roundShift_within_half n k
  refine heven (le_antisymm hhalf ?_)
  have hgap : m * 2 ^ k + 2 ^ k ≤ roundShift n k * 2 ^ k ∨ roundShift n k * 2 ^ k + 2 ^ k ≤ m * 2 ^ k := by
    rw [← Nat.succ_mul, ← Nat.succ_mul]
    rcases Nat.lt_or_gt_of_ne hm with hlt | hgt
    · exact .inl (Nat.mul_le_mul_right _ hlt)
    · exact .inr (Nat.mul_le_mul_right _ hgt)
  omega

/-- How far a pattern is from the exact product `n`, both in units of 2^-298. -/
def productDistance (x : Word32) (n : Nat) : Nat := ((f32Magnitude x * 2 ^ 149 : Int) - (n : Int)).natAbs

/-- The distance in the form of the rounding's laws. -/
theorem productDistance_eq (x : Word32) (n : Nat) :
    productDistance x n = ((n : Int) - (f32Magnitude x * 2 ^ 149 : Nat)).natAbs := by
  rw [productDistance, ← Int.natAbs_neg, neg_sub]
  push_cast
  rfl

/-- The distances in units of 2^-298 and of 2^-149. -/
theorem productDistance_mul (x : Word32) (n : Nat) : productDistance x (n * 2 ^ 149) = f32Distance x n * 2 ^ 149 := by
  rw [productDistance, f32Distance]
  push_cast
  rw [← sub_mul, Int.natAbs_mul]
  rfl

/-- No pattern is nearer to `n` than the rounded number, and that is even when another one is as near. A pattern that is
no multiple of the rounding unit lies below `2^23` units, and `n` does not. -/
theorem roundShift_nearest_pattern (n : Nat) (x : Word32) :
    ((n : Int) - (roundShift n (roundingShift n) * 2 ^ roundingShift n : Nat)).natAbs ≤ productDistance x n ∧
      (((n : Int) - (roundShift n (roundingShift n) * 2 ^ roundingShift n : Nat)).natAbs = productDistance x n →
        f32Magnitude x * 2 ^ 149 ≠ roundShift n (roundingShift n) * 2 ^ roundingShift n →
        roundShift n (roundingShift n) % 2 = 0) := by
  rw [productDistance_eq]
  have hunit : 2 ^ (roundingShift n - 149) * 2 ^ 149 = 2 ^ roundingShift n := by
    rw [← pow_add, Nat.sub_add_cancel (le_roundingShift n)]
  by_cases hdvd : 2 ^ (roundingShift n - 149) ∣ f32Magnitude x
  · obtain ⟨m, hm⟩ := hdvd
    have hx : f32Magnitude x * 2 ^ 149 = m * 2 ^ roundingShift n := by rw [hm, ← hunit]; ring
    rw [hx]
    exact ⟨roundShift_nearest n _ m, fun htie hne => roundShift_even_of_tie (fun h => hne (by rw [h])) htie⟩
  · have hn : 2 ^ 23 * 2 ^ roundingShift n ≤ n := le_of_roundingShift_ne fun h => hdvd (by simp [h])
    have hx : f32Magnitude x * 2 ^ 149 < 2 ^ 23 * 2 ^ roundingShift n := by
      rw [← hunit, ← mul_assoc]
      exact Nat.mul_lt_mul_of_pos_right ((dvd_f32Magnitude_or_lt x _).resolve_left hdvd) (Nat.two_pow_pos _)
    have hnear := roundShift_nearest n (roundingShift n) (2 ^ 23)
    omega

/-! ### The product -/

section
variable {a b : Word32} (ha : f32Finite a = true) (hb : f32Finite b = true)
include ha hb

theorem sign_code_f32Mul : f32Sign (f32Mul a b) = f32Sign a ^^^ f32Sign b ∧
    f32Code (f32Mul a b) = roundMagnitude (f32Magnitude a * f32Magnitude b) := by
  have hle : roundMagnitude (f32Magnitude a * f32Magnitude b) ≤ 255 * 2 ^ 23 := min_le_right _ _
  refine sign_code_of_toNat ?_ (by omega)
  rw [f32Mul, if_pos (by rw [ha, hb]; rfl), toNat_append_eq_add, BitVec.toNat_ofNat, Nat.mod_eq_of_lt (by omega)]

theorem f32Mul_comm : f32Mul a b = f32Mul b a := by
  rw [f32Mul, f32Mul, if_pos (by rw [ha, hb]; rfl), if_pos (by rw [ha, hb]; rfl), BitVec.xor_comm, Nat.mul_comm]

/-- A finite product is the rounded number, and as even. -/
theorem f32Mul_eq_roundShift {n : Nat} (hn : f32Magnitude a * f32Magnitude b = n)
    (hfin : f32Finite (f32Mul a b) = true) :
    f32Magnitude (f32Mul a b) * 2 ^ 149 = roundShift n (roundingShift n) * 2 ^ roundingShift n ∧
      f32Fraction (f32Mul a b) % 2 = roundShift n (roundingShift n) % 2 := by
  have hcode := (sign_code_f32Mul ha hb).2
  rw [f32Finite_iff, hcode] at hfin
  rw [hn, roundMagnitude_eq_min] at hcode hfin
  rw [min_eq_left (by omega)] at hcode
  have hq : roundShift n (roundingShift n) ≤ 2 ^ 24 := roundShift_le (by have := lt_of_roundingShift n; omega)
  have hj : roundingShift n - 149 = 0 ∨ 2 ^ 23 ≤ roundShift n (roundingShift n) := by
    by_cases h : roundingShift n = 149
    · exact .inl (by omega)
    · exact .inr (le_roundShift (le_of_roundingShift_ne h))
  constructor
  · rw [f32Magnitude_of_code hcode hq hj, mul_assoc, ← pow_add, Nat.sub_add_cancel (le_roundingShift n)]
  · rw [f32Fraction_eq_code_mod, hcode]
    omega

/-- No pattern is nearer to the exact product than a finite product is, and that is even when another one is as near. -/
theorem f32Mul_nearest {n : Nat} (hn : f32Magnitude a * f32Magnitude b = n) (hfin : f32Finite (f32Mul a b) = true)
    (x : Word32) :
    productDistance (f32Mul a b) n ≤ productDistance x n ∧
      (productDistance (f32Mul a b) n = productDistance x n → f32Magnitude x ≠ f32Magnitude (f32Mul a b) →
        f32Fraction (f32Mul a b) % 2 = 0) := by
  obtain ⟨hmag, heven⟩ := f32Mul_eq_roundShift ha hb hn hfin
  obtain ⟨hle, htie⟩ := roundShift_nearest_pattern n x
  rw [← hmag, ← productDistance_eq] at hle
  rw [← hmag, ← heven, ← productDistance_eq] at htie
  exact ⟨hle, fun h hne => htie h fun heq => hne (Nat.eq_of_mul_eq_mul_right (Nat.two_pow_pos _) heq)⟩

/-- The rounding error of a product that is no subnormal number is at most 2^-24 of it. -/
theorem f32Mul_relative_error {n : Nat} (hn : f32Magnitude a * f32Magnitude b = n) (hnormal : 2 ^ 23 * 2 ^ 149 ≤ n)
    (hfin : f32Finite (f32Mul a b) = true) : productDistance (f32Mul a b) n * 2 ^ 24 ≤ n := by
  have hhalf := (roundShift_within_half n (roundingShift n)).1
  have hunit : 2 ^ 23 * 2 ^ roundingShift n ≤ n := by
    by_cases h : roundingShift n = 149
    · rwa [h]
    · exact le_of_roundingShift_ne h
  rw [← (f32Mul_eq_roundShift ha hb hn hfin).1, ← productDistance_eq] at hhalf
  calc productDistance (f32Mul a b) n * 2 ^ 24 = 2 * productDistance (f32Mul a b) n * 2 ^ 23 := by ring
    _ ≤ 2 ^ roundingShift n * 2 ^ 23 := Nat.mul_le_mul_right _ hhalf
    _ ≤ n := by rwa [Nat.mul_comm]

end

end Sys2Proof.Machine
end

