-- ==== Sys2Proof/Proofs/LuxLaws.lean ====
section
/-! SUPPORT. The lux table by the exponent step of its entries, and the illuminance next to the exact product of count
and constant (`42_lux.md` R88 to R98). -/

namespace Sys2Proof.Machine

/-! ### The table -/

/-- The stored constant of exponent step `k` (R91). -/
def luxConstant (k : Nat) : Word32 := BitVec.ofNat 32 (0x3B6BEDFA + k * 2 ^ 23)

/-- The rows of the stored constants by their exponent steps (R89, R91). -/
theorem luxTable_lookup : ∀ g < 4, ∀ t < 6,
    (luxTable[g]?).bind (fun row => row[t]?) = some (luxConstant (luxStep g t)) := by decide

/-- The rows of the printed decimals by their exponent steps (R88, R89). -/
theorem luxDecimals_lookup : ∀ g < 4, ∀ t < 6,
    (luxDecimals[g]?).bind (fun row => row[t]?) = some (36 * 2 ^ luxStep g t) := by decide

theorem luxStep_le : ∀ g < 4, ∀ t < 6, luxStep g t ≤ 9 := by decide

/-- Gain and integration time halve as often as the exponent step counts (R89). -/
theorem two_pow_luxStep_mul_gain_time : ∀ g < 4, ∀ t < 6,
    2 ^ luxStep g t * gainEighths g * itMillis t = gainEighths 1 * itMillis 5 := by decide

theorem luxRes_of_outside {g t : BitVec 4} (h : 4 ≤ g.toNat ∨ 6 ≤ t.toNat) : luxRes g t = none := if_pos h

theorem luxRes_of_inside {g t : BitVec 4} (hg : g.toNat < 4) (ht : t.toNat < 6) :
    luxRes g t = some (luxConstant (luxStep g.toNat t.toNat)) :=
  (if_neg (not_or.mpr ⟨not_le.mpr hg, not_le.mpr ht⟩)).trans (luxTable_lookup _ hg _ ht)

/-- A constant is found at indices in the table only, and is the one of their exponent step. -/
theorem inside_of_luxRes {g t : BitVec 4} {c : Word32} (h : luxRes g t = some c) :
    g.toNat < 4 ∧ t.toNat < 6 ∧ c = luxConstant (luxStep g.toNat t.toNat) := by
  by_cases hout : 4 ≤ g.toNat ∨ 6 ≤ t.toNat
  · rw [luxRes_of_outside hout] at h
    cases h
  · obtain ⟨hg, ht⟩ := not_or.mp hout
    rw [luxRes_of_inside (not_le.mp hg) (not_le.mp ht)] at h
    exact ⟨not_le.mp hg, not_le.mp ht, (Option.some.inj h).symm⟩

/-- A decimal is found at indices in the table only, and is the one of their exponent step. -/
theorem inside_of_luxDecimals {g t d : Nat} (h : (luxDecimals[g]?).bind (fun row => row[t]?) = some d) :
    g < 4 ∧ t < 6 ∧ d = 36 * 2 ^ luxStep g t := by
  obtain ⟨row, hrow, hd⟩ := Option.bind_eq_some_iff.mp h
  have hlength : ∀ row ∈ luxDecimals, row.length = 6 := by decide
  have hg : g < 4 := (List.getElem?_eq_some_iff.mp hrow).1
  have ht : t < 6 := hlength row (List.mem_of_getElem? hrow) ▸ (List.getElem?_eq_some_iff.mp hd).1
  rw [luxDecimals_lookup g hg t ht] at h
  exact ⟨hg, ht, (Option.some.inj h).symm⟩

/-! ### The stored constants as numbers -/

section
variable {k : Nat} (hk : k ≤ 9)
include hk

theorem sign_code_luxConstant :
    f32Sign (luxConstant k) = 0 ∧ f32Code (luxConstant k) = (117 + k) * 2 ^ 23 + 15461882 := by
  obtain ⟨hsign, hcode⟩ := sign_code_ofNat (c := 0x3B6BEDFA + k * 2 ^ 23) (by omega)
  exact ⟨hsign, hcode.trans (by omega)⟩

theorem f32Finite_luxConstant : f32Finite (luxConstant k) = true := by
  rw [f32Finite_iff, (sign_code_luxConstant hk).2]
  omega

theorem f32Magnitude_luxConstant : f32Magnitude (luxConstant k) = 15461882 * 2 ^ (117 + k) :=
  f32Magnitude_of_code (sign_code_luxConstant hk).2 (by decide) (.inr (by decide))

end

/-- Every pattern of another magnitude than the constant of step `k` is farther from 0.0036 times `2^k`: a magnitude
that is no multiple of the constant's last place is below `2^23` of them. -/
theorem luxConstant_nearest {k : Nat} (hk : k ≤ 9) {x : Word32} (hx : f32Magnitude x ≠ f32Magnitude (luxConstant k)) :
    ((f32Magnitude (luxConstant k) * 10000 : Int) - (36 * 2 ^ k * 2 ^ 149 : Nat)).natAbs <
      ((f32Magnitude x * 10000 : Int) - (36 * 2 ^ k * 2 ^ 149 : Nat)).natAbs := by
  have hdecimal : 36 * 2 ^ k * 2 ^ 149 = 36 * 2 ^ 32 * 2 ^ (117 + k) := by
    rw [mul_assoc, mul_assoc, ← pow_add, ← pow_add]
    congr 2
    omega
  have hspacing := dvd_f32Magnitude_or_lt x (117 + k)
  rw [f32Magnitude_luxConstant hk] at hx ⊢
  rw [hdecimal]
  generalize 2 ^ (117 + k) = u at *
  rcases hspacing with ⟨m, hm⟩ | hlt
  · rw [Nat.mul_comm] at hm
    rcases Nat.lt_or_gt_of_ne (show m ≠ 15461882 from fun h => hx (h ▸ hm)) with hlt | hgt
    · have hbelow := Nat.mul_le_mul_right u (Nat.le_of_lt_succ hlt)
      omega
    · have habove := Nat.mul_le_mul_right u (Nat.succ_le_of_lt hgt)
      omega
  · omega

/-! ### A pattern that is as near as another -/

section
variable {r y : Word32} {n : Nat} (hnear : f32Distance r n ≤ f32Distance y n)
include hnear

/-- A pattern as near as an exact one is that one. -/
theorem eq_of_nearest_exact (hs : f32Sign r = f32Sign y) (hy : f32Magnitude y = n) : r = y := by
  refine eq_of_sign_magnitude hs ?_
  unfold f32Distance at hnear
  omega

/-- Above a pattern's magnitude nothing smaller is as near. -/
theorem le_f32Code_of_nearest (hy : f32Magnitude y ≤ n) : f32Code y ≤ f32Code r := by
  by_contra hlt
  have hless := f32Magnitude_lt_of_code_lt (not_le.mp hlt)
  unfold f32Distance at hnear
  omega

/-- Below the middle of a pattern and the next one nothing greater is as near. -/
theorem f32Code_le_of_nearest {z : Word32} (hz : f32Code z = f32Code y + 1)
    (hy : 2 * n < f32Magnitude y + f32Magnitude z) : f32Code r ≤ f32Code y := by
  by_contra hgt
  have hyz := f32Magnitude_lt_of_code_lt (show f32Code y < f32Code z by omega)
  have hzr := f32Magnitude_le_of_code_le (show f32Code z ≤ f32Code r by omega)
  unfold f32Distance at hnear
  omega

end

/-! ### The illuminance -/

theorem illuminance_product (raw : Word) (c : Word32) :
    f32Magnitude (u16ToF32 raw) * f32Magnitude c = raw.toNat * f32Magnitude c * 2 ^ 149 := by
  rw [f32Magnitude_u16ToF32, Nat.mul_right_comm]

section
variable (raw : Word) {k : Nat} (hk : k ≤ 9)
include hk

theorem f32Sign_illuminance : f32Sign (illuminance raw (luxConstant k)) = 0 := by
  rw [illuminance, (sign_code_f32Mul (f32Finite_u16ToF32 raw) (f32Finite_luxConstant hk)).1, f32Sign_u16ToF32,
    (sign_code_luxConstant hk).1]
  rfl

/-- The exact product of a count that is not 0 is at least the smallest constant. -/
theorem le_exactProduct (hraw : raw ≠ 0) : 15461882 * 2 ^ 117 ≤ raw.toNat * f32Magnitude (luxConstant k) := by
  rw [f32Magnitude_luxConstant hk]
  calc 15461882 * 2 ^ 117 ≤ 15461882 * 2 ^ (117 + k) :=
        Nat.mul_le_mul_left _ (Nat.pow_le_pow_right two_pos (Nat.le_add_right _ _))
    _ ≤ raw.toNat * (15461882 * 2 ^ (117 + k)) :=
        Nat.le_mul_of_pos_left _ (raw.toNat_pos.mpr (raw.pos_iff_ne_zero.mpr hraw))

/-- The exact product is at most the one at the largest count and the largest constant. -/
theorem exactProduct_le : raw.toNat * f32Magnitude (luxConstant k) ≤ 65535 * (15461882 * 2 ^ 126) := by
  rw [f32Magnitude_luxConstant hk]
  exact Nat.mul_le_mul (Nat.le_of_lt_succ raw.isLt)
    (Nat.mul_le_mul_left _ (Nat.pow_le_pow_right two_pos (by omega)))

theorem f32Finite_illuminance : f32Finite (illuminance raw (luxConstant k)) = true := by
  refine f32Mul_finite (f32Finite_u16ToF32 raw) (f32Finite_luxConstant hk) ?_
  rw [illuminance_product]
  exact Nat.mul_lt_mul_of_pos_right ((exactProduct_le raw hk).trans_lt (by decide)) (Nat.two_pow_pos _)

/-- No pattern is nearer to the exact product than the illuminance is, and that is even when another one is as near. -/
theorem illuminance_nearest (x : Word32) :
    f32Distance (illuminance raw (luxConstant k)) (raw.toNat * f32Magnitude (luxConstant k)) ≤
        f32Distance x (raw.toNat * f32Magnitude (luxConstant k)) ∧
      (f32Distance (illuminance raw (luxConstant k)) (raw.toNat * f32Magnitude (luxConstant k)) =
          f32Distance x (raw.toNat * f32Magnitude (luxConstant k)) →
        f32Magnitude x ≠ f32Magnitude (illuminance raw (luxConstant k)) →
        f32Fraction (illuminance raw (luxConstant k)) % 2 = 0) := by
  have hnear := f32Mul_nearest (f32Finite_u16ToF32 raw) (f32Finite_luxConstant hk) (illuminance_product raw _)
    (f32Finite_illuminance raw hk) x
  rwa [productDistance_mul, productDistance_mul, Nat.mul_le_mul_right_iff (Nat.two_pow_pos _),
    Nat.mul_left_inj (Nat.two_pow_pos _).ne'] at hnear

/-- The rounding error of the illuminance of a count that is not 0 is at most 2^-24 of the exact product. -/
theorem illuminance_relative_error (hraw : raw ≠ 0) :
    f32Distance (illuminance raw (luxConstant k)) (raw.toNat * f32Magnitude (luxConstant k)) * 2 ^ 24 ≤
      raw.toNat * f32Magnitude (luxConstant k) := by
  have hnormal : 2 ^ 23 ≤ raw.toNat * f32Magnitude (luxConstant k) := le_trans (by decide) (le_exactProduct raw hk hraw)
  have herr := f32Mul_relative_error (f32Finite_u16ToF32 raw) (f32Finite_luxConstant hk) (illuminance_product raw _)
    (Nat.mul_le_mul_right _ hnormal) (f32Finite_illuminance raw hk)
  rw [productDistance_mul, Nat.mul_right_comm] at herr
  exact Nat.le_of_mul_le_mul_right herr (Nat.two_pow_pos _)

/-- The illuminance of a count that is not 0 differs from `raw * 9 * 2^k / 2500` by less than 2^-22 of it (R96): the
constant's own error is 664 parts of `9 * 2^32`. -/
theorem illuminance_relative_error_exact (hraw : raw ≠ 0) :
    ((f32Magnitude (illuminance raw (luxConstant k)) * 2500 : Int) - (raw.toNat * 9 * 2 ^ k * 2 ^ 149 : Nat)).natAbs
        * 2 ^ 22 < raw.toNat * 9 * 2 ^ k * 2 ^ 149 := by
  have herr := illuminance_relative_error raw hk hraw
  have hpos : 0 < raw.toNat * 2 ^ (117 + k) :=
    Nat.mul_pos (raw.toNat_pos.mpr (raw.pos_iff_ne_zero.mpr hraw)) (Nat.two_pow_pos _)
  rw [f32Magnitude_luxConstant hk, Nat.mul_left_comm, f32Distance] at herr
  rw [show raw.toNat * 9 * 2 ^ k * 2 ^ 149 = 9 * 2 ^ 32 * (raw.toNat * 2 ^ (117 + k)) by ring]
  generalize raw.toNat * 2 ^ (117 + k) = u at herr hpos ⊢
  omega

/-- The illuminance of count 0 (R95). -/
theorem illuminance_zero : illuminance 0 (luxConstant k) = 0 :=
  eq_of_nearest_exact (illuminance_nearest 0 hk 0).1 (f32Sign_illuminance 0 hk) (Nat.zero_mul _).symm

/-- The illuminance of count 1 is the constant itself (R95). -/
theorem illuminance_one : illuminance 1 (luxConstant k) = luxConstant k :=
  eq_of_nearest_exact (illuminance_nearest 1 hk _).1
    ((f32Sign_illuminance 1 hk).trans (sign_code_luxConstant hk).1.symm) (Nat.one_mul _).symm

/-- The illuminance of a count that is not 0 is at least the smallest constant (R95). -/
theorem le_illuminance (hraw : raw ≠ 0) : 0x3B6BEDFA ≤ (illuminance raw (luxConstant k)).toNat := by
  have hsmallest : f32Magnitude 0x3B6BEDFA ≤ raw.toNat * f32Magnitude (luxConstant k) :=
    (f32Magnitude_luxConstant (Nat.zero_le 9)).trans_le (le_exactProduct raw hk hraw)
  rw [toNat_eq_f32Code (f32Sign_illuminance raw hk)]
  exact le_f32Code_of_nearest (illuminance_nearest raw hk 0x3B6BEDFA).1 hsmallest

/-- The illuminance is at most the one of the largest count at the largest constant (R95). -/
theorem illuminance_le : (illuminance raw (luxConstant k)).toNat ≤ 0x47EBED0E := by
  have hlargest : 2 * (raw.toNat * f32Magnitude (luxConstant k)) < f32Magnitude 0x47EBED0E + f32Magnitude 0x47EBED0F :=
    (Nat.mul_le_mul_left 2 (exactProduct_le raw hk)).trans_lt (by decide)
  rw [toNat_eq_f32Code (f32Sign_illuminance raw hk)]
  exact f32Code_le_of_nearest (illuminance_nearest raw hk 0x47EBED0E).1 (by decide) hlargest

end

/-! ### The operations -/

theorem withLuxRes_of_inside {g t : BitVec 4} (hg : g.toNat < 4) (ht : t.toNat < 6) (use : Word32 → Word32)
    (s : State) :
    withLuxRes .invalidParameter (luxRes g t) use s =
      { s with rsp := some (.ok (use (luxConstant (luxStep g.toNat t.toNat)))) } := by
  rw [luxRes_of_inside hg ht]
  rfl

theorem withLuxRes_of_outside {g t : BitVec 4} (h : 4 ≤ g.toNat ∨ 6 ≤ t.toNat) (use : Word32 → Word32) (s : State) :
    withLuxRes .invalidParameter (luxRes g t) use s = { s with rsp := some (.err .invalidParameter) } := by
  rw [luxRes_of_outside h]
  rfl

/-- LUXMUL in the table answers the illuminance (R98). -/
theorem exec_luxmul_of_inside {g t : BitVec 4} (hg : g.toNat < 4) (ht : t.toNat < 6) (raw : Word) (s : State) :
    exec (.luxmul g t raw) s =
      .next { s with rsp := some (.ok (illuminance raw (luxConstant (luxStep g.toNat t.toNat)))) } :=
  congrArg Host.Outcome.next (withLuxRes_of_inside hg ht (illuminance raw) s)

end Sys2Proof.Machine
end

