-- ==== Sys2Proof/Proofs/Lux.lean ====
section
/-! PROOFS. The statements on the lux family (`42_lux.md`). -/

namespace Sys2Proof.Proofs

open Sys2Proof Sys2Proof.Machine

/-- Settles O25: the lookup finds the constant of the exponent step. -/
theorem luxresReturnsTheStoredConstant : Obligations.LuxresReturnsTheStoredConstant :=
  fun _ _ s hg ht => congrArg Host.Outcome.next (withLuxRes_of_inside hg ht id s)

/-- Settles O26: the lookup is guarded. -/
theorem luxOpsRejectIndicesOutsideTheTable : Obligations.LuxOpsRejectIndicesOutsideTheTable :=
  fun _ _ raw s h => ⟨congrArg Host.Outcome.next (withLuxRes_of_outside h id s),
    congrArg Host.Outcome.next (withLuxRes_of_outside h (illuminance raw) s)⟩

/-- Settles O28: the decimals are 36 times `2^k`, the constants' magnitudes 15461882 times `2^(117 + k)`. -/
theorem resolutionTimesGainTimesTimeIsConstant : Obligations.ResolutionTimesGainTimesTimeIsConstant := by
  constructor
  · intro g t d h
    obtain ⟨hg, ht, rfl⟩ := inside_of_luxDecimals h
    rw [mul_assoc, mul_assoc, mul_assoc 36, ← two_pow_luxStep_mul_gain_time _ hg _ ht, mul_assoc]
  · intro g t c h
    obtain ⟨hg, ht, rfl⟩ := inside_of_luxRes h
    have hbase : f32Magnitude 0x3B6BEDFA = 15461882 * 2 ^ 117 := f32Magnitude_luxConstant (k := 0) (by decide)
    rw [hbase, f32Magnitude_luxConstant (luxStep_le _ hg _ ht), mul_assoc _ (gainEighths 1),
      ← two_pow_luxStep_mul_gain_time _ hg _ ht, pow_add]
    ring

/-- Settles O27: the decimal is 0.0036 times `2^k`. -/
theorem storedConstantsAreNearestToDecimals : Obligations.StoredConstantsAreNearestToDecimals := by
  intro g t c x d hc hd _ hx
  obtain ⟨hg, ht, rfl⟩ := inside_of_luxRes hc
  obtain ⟨-, -, rfl⟩ := inside_of_luxDecimals hd
  exact luxConstant_nearest (luxStep_le _ hg _ ht) hx

/-- Settles O29: the count's top bit is moved to the hidden bit's place. -/
theorem countConvertsExactly : Obligations.CountConvertsExactly :=
  fun n => ⟨f32Sign_u16ToF32 n, f32Finite_u16ToF32 n, f32Magnitude_u16ToF32 n⟩

/-- Settles O30: the rounded number is nearest among the multiples of the rounding unit, and a pattern that is no such
multiple is farther away. -/
theorem f32MulRoundsToNearestEven : Obligations.F32MulRoundsToNearestEven := by
  intro a b ha hb
  exact ⟨(sign_code_f32Mul ha hb).1, f32Mul_comm ha hb, f32Mul_finite ha hb,
    fun hfin x _ => f32Mul_nearest ha hb rfl hfin x⟩

/-- Settles O31: the product is in range, so it is the rounded one. -/
theorem luxmulIsTheCorrectlyRoundedProduct : Obligations.LuxmulIsTheCorrectlyRoundedProduct := by
  intro g t raw s hg ht
  have hk := luxStep_le _ hg _ ht
  exact ⟨_, _, luxRes_of_inside hg ht, exec_luxmul_of_inside hg ht raw s,
    f32Finite_illuminance raw hk, f32Sign_illuminance raw hk, fun x _ => illuminance_nearest raw hk x⟩

/-- Settles O32: 0, the constant itself and the two bounds are binary32 numbers, and none of them is nearer to the exact
product than the illuminance is. -/
theorem luxmulResultRange : Obligations.LuxmulResultRange := by
  intro g t raw s hg ht
  have hk := luxStep_le _ hg _ ht
  refine ⟨_, exec_luxmul_of_inside hg ht raw s, ?_, fun h => ⟨?_, ?_⟩, ?_⟩
  · rintro rfl
    exact illuminance_zero hk
  · exact le_illuminance raw hk h
  · exact illuminance_le raw hk
  · rintro rfl
    rw [luxRes_of_inside hg ht, illuminance_one hk]

/-- Settles O33: the rounding error is at most 2^-24 of the product, the constant's own at most `664 / (9 * 2^32)`. -/
theorem luxmulRelativeErrorBelowTwoToMinus22 : Obligations.LuxmulRelativeErrorBelowTwoToMinus22 := by
  intro g t raw s hg ht hraw
  exact ⟨_, exec_luxmul_of_inside hg ht raw s,
    illuminance_relative_error_exact raw (luxStep_le _ hg _ ht) hraw⟩

end Sys2Proof.Proofs
end

