-- ==== Sys2Proof/Proofs/ConfigAccessLaws.lean ====
section
/-! SUPPORT. A read and a write with the rest of an operation after each answer of the transport, the operations that
read the configuration word and answer it or a part of it (`43_config_access.md` R100 to R106), and the setters by the
answers of their two transactions (R107 to R115). -/

namespace Sys2Proof.Machine

/-! ### An operation after the answer of its transaction -/

section
variable {a : Byte} {p : Wait} {s u : State}

theorem readThen_of_ok {w : Word} (h : memRead a s = (.ok w, u)) (k : Word → State → State) :
    readThen a p k s = k w u := by
  simp only [readThen, h]

theorem readThen_of_fail (h : memRead a s = (.fail, u)) (k : Word → State → State) :
    readThen a p k s = raise .busError u := by
  simp only [readThen, h]

theorem readThen_of_silent (h : memRead a s = (.silent, u)) (k : Word → State → State) :
    readThen a p k s = await p u := by
  simp only [readThen, h]

theorem writeThen_of_ok {v : Word} (h : memWrite a v s = (.ok (), u)) (k : State → State) :
    writeThen a v p k s = k u := by
  simp only [writeThen, h]

theorem writeThen_of_fail {v : Word} (h : memWrite a v s = (.fail, u)) (k : State → State) :
    writeThen a v p k s = raise .busError u := by
  simp only [writeThen, h]

theorem writeThen_of_silent {v : Word} (h : memWrite a v s = (.silent, u)) (k : State → State) :
    writeThen a v p k s = await p u := by
  simp only [writeThen, h]

end

/-! ### The gate -/

/-- Every operation that uses the bus, but for INIT, stands behind the gate (R99 item 1, R120). -/
theorem exec_eq_gate {i : Instr} (hbus : isPure i = false) (hinit : ∀ p, i ≠ .init p) :
    ∃ k, ∀ s, exec i s = .next (gate k s) := by
  cases i with
  | rdcfg | getsd | getie | getpers | getit | getgain => exact ⟨_, fun _ => rfl⟩
  | setsd | setie | setpers | setit | setgain | rdlux => exact ⟨_, fun _ => rfl⟩
  | init p => exact absurd rfl (hinit p)
  | xsd | xie | xpers | xit | xgain | cfgunpk | isd | iie | ipers | iit | igain | cfgpack | cfgdef => cases hbus
  | itenc | itdec | luxres | luxmul => cases hbus

/-! ### RDCFG and the getters -/

/-- A getter's value in numbers: the field of R18's table, and for IT its logical index (R101 to R106). -/
theorem readingOf_getter (f : CfgField) (w : Word) :
    readingOf (getterOf f) w.toNat = some (fieldReading f w).toNat := by
  have hfield := extract_toNat f w
  have hword : ((fieldExtract f w).setWidth 32).toNat = w.toNat / 2 ^ params.lo f % 2 ^ params.width f :=
    (BitVec.toNat_setWidth_of_le (by decide)).trans hfield
  cases f with
  | sd => simp only [getterOf, readingOf, fieldReading, hword, params, Nat.reducePow, Nat.div_one]
  | ie | pers | gain => exact congrArg some hword.symm
  | it =>
    have hpattern : ((fieldExtract .it w).setWidth 8).toNat = w.toNat / 64 % 16 := by
      rw [BitVec.toNat_setWidth, Nat.mod_eq_of_lt ((extract_lt .it w).trans (by decide)), hfield]
      rfl
    rw [getterOf, readingOf, fieldReading, BitVec.toNat_setWidth_of_le (by decide), itDecPort_toNat, hpattern]

/-- Behind its gate the operation makes one read of address 0, waiting for it at `p`, and answers what `use` makes of the
word, which is its reading of that word in numbers. -/
structure Reads (i : Instr) (p : Wait) (use : Word → Word32) : Prop where
  exec_eq : ∀ s, exec i s = .next (gate (readThen 0 p fun w => finish (use w)) s)
  reading_eq : ∀ w : Word, readingOf i w.toNat = some (use w).toNat

theorem reads_rdcfg : Reads .rdcfg .rdcfg (BitVec.setWidth 32) :=
  ⟨fun _ => rfl, fun w => by rw [readingOf, BitVec.toNat_setWidth_of_le (by decide)]⟩

theorem reads_getter (f : CfgField) : Reads (getterOf f) (.get f) (fieldReading f) :=
  ⟨exec_getter f, readingOf_getter f⟩

/-- What has a reading is RDCFG or a getter. -/
theorem exists_reads {i : Instr} {c n : Nat} (h : readingOf i c = some n) : ∃ p use, Reads i p use := by
  unfold readingOf at h
  split at h
  · exact ⟨_, _, reads_rdcfg⟩
  · exact ⟨_, _, reads_getter .sd⟩
  · exact ⟨_, _, reads_getter .ie⟩
  · exact ⟨_, _, reads_getter .pers⟩
  · exact ⟨_, _, reads_getter .it⟩
  · exact ⟨_, _, reads_getter .gain⟩
  · cases h

section
variable {i : Instr} {p : Wait} {use : Word → Word32} {s u : State}

theorem Reads.exec_of_ok {w : Word} (h : Reads i p use) (hb : s.bound = true) (hr : memRead 0 s = (.ok w, u)) :
    exec i s = .next { u with rsp := some (.ok (use w)) } := by
  rw [h.exec_eq, gate_of_bound hb, readThen_of_ok hr]
  rfl

theorem Reads.exec_of_fail (h : Reads i p use) (hb : s.bound = true) (hr : memRead 0 s = (.fail, u)) :
    exec i s = .next { u with rsp := some (.err .busError) } := by
  rw [h.exec_eq, gate_of_bound hb, readThen_of_fail hr]
  rfl

theorem Reads.exec_of_silent (h : Reads i p use) (hb : s.bound = true) (hr : memRead 0 s = (.silent, u)) :
    exec i s = .next { u with pending := some p } := by
  rw [h.exec_eq, gate_of_bound hb, readThen_of_silent hr]
  rfl

/-- The value answered, as the number that the reading of the word is. -/
theorem Reads.use_eq {w : Word} {n : Nat} (h : Reads i p use) (hn : readingOf i w.toNat = some n) :
    use w = BitVec.ofNat 32 n := by
  have huse : (use w).toNat = n := Option.some.inj ((h.reading_eq w).symm.trans hn)
  rw [← huse, BitVec.ofNat_toNat, BitVec.setWidth_eq]

/-- Under the reference device the word is what register 0 holds (R40). -/
theorem Reads.exec_of_up (h : Reads i p use) (hb : s.bound = true) (hup : s.ReferenceUp) :
    exec i s = .next { s with
      trace := s.trace ++ [.read 0 (some (s.mem.reg 0))], rsp := some (.ok (use (s.mem.reg 0))) } :=
  h.exec_of_ok hb (memRead_of_up hup rfl)

end

/-! ### The word a setter writes -/

/-- cfg' of R107: the word read, with the field replaced by the translated operand. -/
def setWord (f : CfgField) (v : Byte) (r : Word) : Word := fieldInsert f r (setterValue f v)

/-- The translated operand in numbers (R107 step 4). -/
theorem setterValue_toNat (f : CfgField) (v : Byte) :
    (setterValue f v).toNat = if f = .it then patternOf v.toNat else v.toNat := by
  cases f with
  | it => exact (BitVec.toNat_setWidth_of_le (by decide)).trans (itEncPort_toNat v)
  | sd | ie | pers | gain => exact BitVec.toNat_setWidth_of_le (by decide)

section
variable {f g : CfgField} {v : Byte}

/-- The word written in numbers (R107, R110 to R114). -/
theorem setWord_toNat (hv : v.toNat ≤ setMax f) (r : Word) :
    (setWord f v r).toNat = wordAfterSet f v.toNat r.toNat := by
  rw [setWord, insert_toNat f r _ (setterValue_fits f v hv), setterValue_toNat]
  cases f <;> rfl

/-- The matching getter reads the operand out of the word written (R115): for IT the pattern is decoded to its index. -/
theorem fieldReading_setWord_same (hv : v.toNat ≤ setMax f) (r : Word) :
    fieldReading f (setWord f v r) = v.setWidth 32 := by
  have hfield : fieldExtract f (setWord f v r) = setterValue f v := extract_insert_same (setterValue_fits f v hv)
  cases f with
  | sd | ie | pers | gain => simp [fieldReading, hfield, setterValue]
  | it =>
    have hindex : itDecPort ((itEncPort v).setWidth 8) = v.setWidth 3 := itDecPort_itEncPort hv
    have hwiden : (v.setWidth 3).setWidth 32 = v.setWidth 32 := by
      have hle : v.toNat ≤ 5 := hv
      bv_omega
    rw [fieldReading, hfield, setterValue, BitVec.setWidth_setWidth_of_le _ (by decide), hindex, hwiden]

/-- Every other getter reads what it read before (R115). -/
theorem fieldReading_setWord_other (h : g ≠ f) (hv : v.toNat ≤ setMax f) (r : Word) :
    fieldReading g (setWord f v r) = fieldReading g r := by
  have hfield : fieldExtract g (setWord f v r) = fieldExtract g r := extract_insert_other h (setterValue_fits f v hv)
  cases g <;> simp only [fieldReading, hfield]

end

/-! ### The setters by the answers of their transactions -/

section
variable {f : CfgField} {v : Byte} {s u : State}

/-- A bound setter with a legal operand goes to the bus (R107, R108). -/
theorem exec_setter_of_legal (hv : v.toNat ≤ setMax f) (hb : s.bound = true) :
    exec (setterOf f v) s = .next (modifyField f v s) := by
  rw [exec_setter, setField_of_legal hv hb]

/-- A bound setter with any other operand is rejected (R108). -/
theorem exec_setter_of_illegal (hv : setMax f < v.toNat) (hb : s.bound = true) :
    exec (setterOf f v) s = .next { s with rsp := some (.err .invalidParameter) } := by
  rw [exec_setter, setField, gate_of_bound hb, if_pos hv]
  rfl

theorem modifyField_of_ok {r : Word} (h : memRead 0 s = (.ok r, u)) :
    modifyField f v s = writeConfig (setWord f v r) u :=
  readThen_of_ok h _

theorem modifyField_of_fail (h : memRead 0 s = (.fail, u)) :
    modifyField f v s = { u with rsp := some (.err .busError) } :=
  readThen_of_fail h _

theorem modifyField_of_silent (h : memRead 0 s = (.silent, u)) :
    modifyField f v s = { u with pending := some (.setRead f v) } :=
  readThen_of_silent h _

theorem writeConfig_of_ok {w : Word} (h : memWrite 0 w s = (.ok (), u)) :
    writeConfig w s = { u with rsp := some (.ok 0) } :=
  writeThen_of_ok h _

theorem writeConfig_of_fail {w : Word} (h : memWrite 0 w s = (.fail, u)) :
    writeConfig w s = { u with rsp := some (.err .busError) } :=
  writeThen_of_fail h _

theorem writeConfig_of_silent {w : Word} (h : memWrite 0 w s = (.silent, u)) :
    writeConfig w s = { u with pending := some (.setWrite w) } :=
  writeThen_of_silent h _

/-- Under the reference device a setter reads register 0 and stores the word with its field replaced (R40, R107). -/
theorem exec_setter_of_up (hv : v.toNat ≤ setMax f) (hb : s.bound = true) (hup : s.ReferenceUp) :
    exec (setterOf f v) s = .next { s with
      mem := s.mem.setReg 0 (setWord f v (s.mem.reg 0)),
      trace := s.trace ++ [.read 0 (some (s.mem.reg 0)), .write 0 (setWord f v (s.mem.reg 0)) true],
      rsp := some (.ok 0) } := by
  rw [exec_setter_of_legal hv hb, modifyField_of_ok (memRead_of_up hup rfl),
    writeConfig_of_ok (memWrite_of_up (s := s.record _) hup rfl _)]
  simp

end

/-- The ends of a setter from its write on (R107 steps 6 and 7, R109): it waits for the write, the write failed, or it
succeeded. -/
theorem writeConfig_outcomes {w : Word} {s t : State} (h : writeConfig w s = t) :
    t.bound = s.bound ∧ t.inputs = s.inputs ∧
    ((t.trace = s.trace ∧ t.rsp = s.rsp ∧ t.pending = some (.setWrite w)) ∨
     (t.trace = s.trace ++ [.write 0 w false] ∧ t.rsp = some (.err .busError) ∧ t.pending = s.pending) ∨
     (t.trace = s.trace ++ [.write 0 w true] ∧ t.rsp = some (.ok 0) ∧ t.pending = s.pending ∧ t.mem.reg 0 = w)) := by
  obtain ⟨⟨fb, fp, fr, fi⟩, -, ft, -⟩ := takeTurn_frame s
  rcases memWrite_cases 0 w s with ⟨-, hw⟩ | hw | hw
  · obtain rfl := (writeConfig_of_ok hw).symm.trans h
    exact ⟨fb, fi, .inr (.inr ⟨congrArg (· ++ [_]) ft, rfl, fp, Memory.reg_setReg_same _ 0 w⟩)⟩
  · obtain rfl := (writeConfig_of_fail hw).symm.trans h
    exact ⟨fb, fi, .inr (.inl ⟨congrArg (· ++ [_]) ft, rfl, fp⟩)⟩
  · obtain rfl := (writeConfig_of_silent hw).symm.trans h
    exact ⟨fb, fi, .inl ⟨ft, fr, rfl⟩⟩

end Sys2Proof.Machine
end

