-- ==== Sys2Proof/Proofs/ConfigAccess.lean ====
section
/-! PROOFS. The statements on the configuration access family (`43_config_access.md`). -/

namespace Sys2Proof.Proofs

open Sys2Proof Sys2Proof.Machine

/-- Settles O40: the reference device answers the one read with what register 0 holds. -/
theorem gettersReturnWhatTheDeviceHolds : Obligations.GettersReturnWhatTheDeviceHolds := by
  intro i s n hn hb hup
  obtain ⟨p, use, h⟩ := exists_reads hn
  rw [h.exec_of_up hb hup, h.use_eq hn]

/-- Settles O41: one lemma per answer of the one read; the waits are those of RDCFG and of each getter. -/
theorem gettersUseTheWordAsDelivered : Obligations.GettersUseTheWordAsDelivered := by
  intro i s u w n hn hb
  obtain ⟨p, use, h⟩ := exists_reads hn
  refine ⟨fun hr => ?_, fun hr => h.exec_of_fail hb hr, fun hr => ⟨?_, ?_⟩⟩
  · rw [h.exec_of_ok hb hr, h.use_eq hn]
  · rintro rfl
    exact reads_rdcfg.exec_of_silent hb hr
  · rintro f rfl
    exact (reads_getter f).exec_of_silent hb hr

/-- Settles O42: what is stored is the word read with the field replaced, and storing it changes the two bytes of
register 0. -/
theorem settersReplaceOneFieldOnTheDevice : Obligations.SettersReplaceOneFieldOnTheDevice := by
  intro f v s hv hb hup
  exact ⟨_, _, exec_setter_of_up hv hb hup, setWord_toNat hv _, Memory.reg_setReg_same _ 0 _,
    fun k h0 h1 => Memory.byte_setReg_other _ _ h0 h1⟩

/-- Settles O44: by the answer of the read, and after a word by that of the write. -/
theorem setterOutcomes : Obligations.SetterOutcomes := by
  intro f v s hv hb
  rw [exec_setter_of_legal hv hb]
  refine ⟨⟨_, rfl, ?_⟩, fun u hr => by rw [modifyField_of_fail hr], fun u hr => by rw [modifyField_of_silent hr],
    fun u u' r hr => ⟨setWord f v r, setWord_toNat hv r, ?_⟩⟩
  · obtain ⟨⟨fb, fp, fr, fi⟩, -, ft, -⟩ := takeTurn_frame s
    rcases memRead_cases 0 s with ⟨r, hr⟩ | hr | hr
    · obtain ⟨hbound, hin, hends⟩ := writeConfig_outcomes (modifyField_of_ok (f := f) (v := v) hr).symm
      refine ⟨hbound.trans (fb.trans hb), hin.trans fi, .inr (.inr ⟨r, setWord f v r, setWord_toNat hv r, ?_⟩)⟩
      simpa [ft, fr, fp] using hends
    · rw [modifyField_of_fail hr]
      exact ⟨fb.trans hb, fi, .inr (.inl ⟨congrArg (· ++ [_]) ft, rfl, fp⟩)⟩
    · rw [modifyField_of_silent hr]
      exact ⟨fb.trans hb, fi, .inl ⟨ft, fr, rfl⟩⟩
  · rw [modifyField_of_ok hr]
    exact ⟨fun hw => by rw [writeConfig_of_fail hw], fun hw => by rw [writeConfig_of_silent hw],
      fun hw => by rw [writeConfig_of_ok hw]⟩

/-- Settles O45: after the setter the device holds the word with the field replaced, and a getter answers its reading of
the word that the device holds. -/
theorem getterReadsBackTheSetValue : Obligations.GetterReadsBackTheSetValue := by
  intro f v s hv hb hup
  have hset := exec_setter_of_up hv hb hup
  refine ⟨_, _, hset, (reads_getter f).exec_of_up hb hup, ?_, fun g hg =>
    ⟨_, _, (reads_getter g).exec_of_up hb hup, (reads_getter g).exec_of_up hb hup, ?_⟩⟩
  · simp only [Memory.reg_setReg_same, fieldReading_setWord_same hv]
  · simp only [Memory.reg_setReg_same, fieldReading_setWord_other hg hv]

/-- Settles O39: all of these operations stand behind the gate. -/
theorem unboundBlockAnswersNotInitialized : Obligations.UnboundBlockAnswersNotInitialized := by
  intro i s hbus hinit hb
  obtain ⟨k, hk⟩ := exec_eq_gate hbus hinit
  rw [hk, gate_of_unbound hb]
  rfl

/-- Settles O43: the bounds are the largest legal operands of the setters. -/
theorem settersRejectBeforeTouchingTheBus : Obligations.SettersRejectBeforeTouchingTheBus := by
  intro v s hb
  exact ⟨fun h => ⟨exec_setter_of_illegal (f := .sd) h hb, exec_setter_of_illegal (f := .ie) h hb⟩,
    fun h => ⟨exec_setter_of_illegal (f := .pers) h hb, exec_setter_of_illegal (f := .gain) h hb⟩,
    fun h => exec_setter_of_illegal (f := .it) h hb⟩

end Sys2Proof.Proofs
end

