-- ==== Sys2Proof/Proofs/InitLaws.lean ====
section
/-! SUPPORT. INIT by its operand and by the answer of its one write (`44_init.md` R116), and what the operations
answer of the default word on the reference device (R117). -/

namespace Sys2Proof.Machine

/-! ### INIT -/

/-- `P = v[0]` in numbers: an odd operand supplies a bus (R49). -/
theorem busSupplied_eq (p : Byte) : busSupplied p = decide (p.toNat % 2 = 1) :=
  Nat.testBit_zero p.toNat

section
variable {p : Byte} {s u : State}

theorem exec_init_of_odd (hp : p.toNat % 2 = 1) : exec (.init p) s = .next (writeDefault s) := by
  have hbus : busSupplied p = true := by rw [busSupplied_eq, decide_eq_true hp]
  exact congrArg Host.Outcome.next (if_pos hbus)

theorem exec_init_of_even (hp : p.toNat % 2 = 0) :
    exec (.init p) s = .next { s with rsp := some (.err .notInitialized) } := by
  have hbus : ¬ busSupplied p = true := by simp [busSupplied_eq, hp]
  exact congrArg Host.Outcome.next (if_neg hbus)

theorem writeDefault_of_ok (h : memWrite 0 0 s = (.ok (), u)) :
    writeDefault s = { u with bound := true, rsp := some (.ok 0) } :=
  writeThen_of_ok h _

theorem writeDefault_of_fail (h : memWrite 0 0 s = (.fail, u)) :
    writeDefault s = { u with rsp := some (.err .busError) } :=
  writeThen_of_fail h _

theorem writeDefault_of_silent (h : memWrite 0 0 s = (.silent, u)) :
    writeDefault s = { u with pending := some .initWrite } :=
  writeThen_of_silent h _

/-- The reference device stores the default word, and the block is bound (R40, R116). -/
theorem exec_init_of_up (hp : p.toNat % 2 = 1) (hup : s.ReferenceUp) :
    exec (.init p) s = .next { s with
      bound := true, mem := s.mem.setReg 0 0, trace := s.trace ++ [.write 0 0 true], rsp := some (.ok 0) } := by
  rw [exec_init_of_odd hp, writeDefault_of_ok (memWrite_of_up hup rfl _)]

end

/-! ### The default word on the reference device (R117) -/

/-- What RDCFG and the getters answer of the default word: for IT the index of pattern 0, else 0. -/
def defaultReadings : List (Instr × Word32) :=
  [(.rdcfg, 0), (.getsd, 0), (.getie, 0), (.getpers, 0), (.getit, 2), (.getgain, 0)]

theorem readingOf_zero_of_mem_defaultReadings : ∀ x ∈ defaultReadings, readingOf x.1 0 = some x.2.toNat := by
  decide

section
variable {s : State}

/-- A transaction is no part of the environment. -/
theorem State.ReferenceUp.record (h : s.ReferenceUp) (x : BusTxn) : (s.record x).ReferenceUp := h

/-- RDLUX on the reference device makes its three reads and then the guarded lookup of the gain and the time index that
register 0 holds (R40, R118). -/
theorem exec_rdlux_of_up (hb : s.bound = true) (hup : s.ReferenceUp) :
    exec .rdlux s = .next (withLuxRes .invalidDeviceState
      ((itDec ((fieldExtract .it (s.mem.reg 0)).setWidth 8)).bind fun t =>
        luxRes ((fieldExtract .gain (s.mem.reg 0)).setWidth 4) (t.setWidth 4))
      (illuminance (s.mem.reg 4))
      { s with trace := s.trace ++
        [.read 0 (some (s.mem.reg 0)), .read 0 (some (s.mem.reg 0)), .read 4 (some (s.mem.reg 4))] }) := by
  rw [exec, execRdlux, gate_of_bound hb, readGain, readThen_of_up hup rfl, readTime, readThen_of_up (hup.record _) rfl,
    readCount, readThen_of_up ((hup.record _).record _) rfl]
  simp [State.record, params]

theorem reading_of_default {i : Instr} {n : Word32} (hb : s.bound = true) (hup : s.ReferenceUp)
    (h0 : s.mem.reg 0 = 0) (hi : (i, n) ∈ defaultReadings) : ∃ u, exec i s = .next u ∧ u.rsp = some (.ok n) := by
  have hread : readingOf i (s.mem.reg 0).toNat = some n.toNat := by
    rw [h0]
    exact readingOf_zero_of_mem_defaultReadings _ hi
  obtain ⟨p, use, h⟩ := exists_reads hread
  have huse : use (s.mem.reg 0) = n := (h.use_eq hread).trans ((BitVec.ofNat_toNat 32 n).trans n.setWidth_eq)
  exact ⟨_, h.exec_of_up hb hup, by rw [huse]⟩

/-- The default word holds gain index 0 and the pattern of time index 2, that is ×1 and 100 ms: RDLUX and LUXMUL look up
the same constant. -/
theorem rdlux_answers_as_luxmul_of_default (hb : s.bound = true) (hup : s.ReferenceUp) (h0 : s.mem.reg 0 = 0) :
    ∃ x y, exec .rdlux s = .next x ∧ exec (.luxmul 0 2 (s.mem.reg 4)) s = .next y ∧ x.rsp = y.rsp := by
  have hgain : fieldExtract .gain 0 = 0 := extract_zero .gain
  have htime : itDec ((fieldExtract .it 0).setWidth 8) = some 2 := by rw [extract_zero]; rfl
  have hlux : luxRes 0 2 = some (luxConstant (luxStep 0 2)) := luxRes_of_inside (by decide) (by decide)
  refine ⟨_, _, exec_rdlux_of_up hb hup, exec_luxmul_of_inside (by decide) (by decide) _ _, ?_⟩
  rw [h0, hgain, htime]
  exact congrArg (fun c => (withLuxRes _ c _ _).rsp) hlux

end

end Sys2Proof.Machine
end

