-- ==== Sys2Proof/Proofs/Init.lean ====
section
/-! PROOFS. The statements on the initialisation family (`44_init.md`). -/

namespace Sys2Proof.Proofs

open Sys2Proof Sys2Proof.Machine

/-- Settles O49: INIT leaves a bound block before a device whose register 0 holds the default word. -/
theorem deviceHoldsTheDefaultAfterInit : Obligations.DeviceHoldsTheDefaultAfterInit := by
  intro p s hp hup
  have h0 := Memory.reg_setReg_same s.mem 0 0
  exact ⟨_, exec_init_of_up hp hup, rfl, h0, fun _ _ hi => reading_of_default rfl hup h0 hi,
    rdlux_answers_as_luxmul_of_default rfl hup h0⟩

/-- Settles O47: the one write stores 0 in register 0, and storing it changes that register's two bytes. -/
theorem initWritesTheDefaultAndBinds : Obligations.InitWritesTheDefaultAndBinds :=
  fun _ _ hp hup => ⟨_, exec_init_of_up hp hup, Memory.reg_setReg_same _ 0 0,
    fun _ hlow hhigh => Memory.byte_setReg_other _ _ hlow hhigh⟩

/-- Settles O48: by the operand, and with a bus by the answer of the write. -/
theorem initBindsOnlyOnASuccessfulWrite : Obligations.InitBindsOnlyOnASuccessfulWrite := by
  intro p s u
  refine ⟨exec_init_of_even, fun hp hw => ?_, fun hp hw => ?_, fun hp hw => ?_⟩
  · rw [exec_init_of_odd hp, writeDefault_of_ok hw]
  · rw [exec_init_of_odd hp, writeDefault_of_fail hw]
  · rw [exec_init_of_odd hp, writeDefault_of_silent hw]

end Sys2Proof.Proofs
end

