-- ==== Sys2Proof/Proofs/ReadLuxLaws.lean ====
section
/-! SUPPORT. The gain and the time index RDLUX takes from a configuration word, its guarded lookup next to LUXMUL's, and
RDLUX by the answers of its three reads, from each of them on (`45_readlux.md` R118). -/

namespace Sys2Proof.Machine

/-! ### The gain and the time of a configuration word -/

/-- The gain index of a configuration word in numbers (R18, R118 step 3). -/
theorem gain_eq (c : Word) : (fieldExtract .gain c).setWidth 4 = BitVec.ofNat 4 (c.toNat / 2048 % 4) := by
  rw [← BitVec.ofNat_toNat, extract_toNat]
  rfl

/-- The gain index is one of the table's four rows. -/
theorem ofNat_gain_lt (c : Word) : (BitVec.ofNat 4 (c.toNat / 2048 % 4)).toNat < 4 := gain_eq c ▸ gain_lt c

/-- The logical time index of a configuration word, `none` for a pattern outside the table (R84, R118 step 5). -/
def timeOf (c : Word) : Option (BitVec 3) := itDec ((fieldExtract .it c).setWidth 8)

/-- `it_dec` in numbers, with the sentinel for `none` (R82, R84). -/
theorem itDec_elim (p : Byte) : (itDec p).elim 6 BitVec.toNat = indexOf p.toNat := by
  rw [← itDecPort_toNat, itDecPort]
  cases itDec p <;> rfl

/-- The time index in numbers. -/
theorem timeOf_elim (c : Word) : (timeOf c).elim 6 BitVec.toNat = indexOf (c.toNat / 64 % 16) := by
  have hpattern : ((fieldExtract .it c).setWidth 8).toNat = c.toNat / 64 % 16 := by
    rw [BitVec.toNat_setWidth, Nat.mod_eq_of_lt ((extract_lt .it c).trans (by decide)), extract_toNat]
    rfl
  rw [timeOf, itDec_elim, hpattern]

theorem timeOf_of_outside {c : Word} (h : indexOf (c.toNat / 64 % 16) = 6) : timeOf c = none := by
  rw [← timeOf_elim] at h
  refine Option.eq_none_iff_forall_ne_some.mpr fun t ht => ?_
  rw [ht] at h
  exact (itDec_lt _ t ht).ne h

theorem timeOf_of_inside {c : Word} (h : indexOf (c.toNat / 64 % 16) < 6) :
    timeOf c = some (BitVec.ofNat 3 (indexOf (c.toNat / 64 % 16))) := by
  rw [← timeOf_elim] at h ⊢
  cases ht : timeOf c with
  | none => simp [ht] at h
  | some t => simp

/-- A time index in the table is one of its six columns. -/
theorem ofNat_index_lt {c : Word} (h : indexOf (c.toNat / 64 % 16) < 6) :
    (BitVec.ofNat 4 (indexOf (c.toNat / 64 % 16))).toNat < 6 :=
  (Nat.mod_le _ _).trans_lt h

/-! ### The guarded lookup -/

/-- The constant RDLUX looks up; without a time index there is none (R118 step 7). -/
def deviceLuxRes (g : BitVec 4) (t : Option (BitVec 3)) : Option Word32 := t.bind fun t => luxRes g (t.setWidth 4)

/-- With a time in the table, RDLUX looks up what LUXMUL does. -/
theorem deviceLuxRes_of_inside {c : Word} (h : indexOf (c.toNat / 64 % 16) < 6) (g : BitVec 4) :
    deviceLuxRes g (timeOf c) = luxRes g (BitVec.ofNat 4 (indexOf (c.toNat / 64 % 16))) := by
  have hwiden : (BitVec.ofNat 3 (indexOf (c.toNat / 64 % 16))).setWidth 4 =
      BitVec.ofNat 4 (indexOf (c.toNat / 64 % 16)) := by
    generalize indexOf (c.toNat / 64 % 16) = i at h
    bv_omega
  rw [timeOf_of_inside h, deviceLuxRes, Option.bind_some, hwiden]

/-- In the table no error is raised, so its kind does not matter. -/
theorem withLuxRes_of_inside_any_kind {g t : BitVec 4} (hg : g.toNat < 4) (ht : t.toNat < 6) (k : ErrorKind)
    (use : Word32 → Word32) (s : State) :
    withLuxRes k (luxRes g t) use s = withLuxRes .invalidParameter (luxRes g t) use s := by
  rw [luxRes_of_inside hg ht]
  rfl

/-- With a time in the table, RDLUX answers what LUXMUL answers (R98, R118). -/
theorem withDeviceLuxRes_of_inside {g : BitVec 4} {c : Word} (hg : g.toNat < 4) (h : indexOf (c.toNat / 64 % 16) < 6)
    (n : Word) (s : State) :
    .next (withLuxRes .invalidDeviceState (deviceLuxRes g (timeOf c)) (illuminance n) s) =
      exec (.luxmul g (BitVec.ofNat 4 (indexOf (c.toNat / 64 % 16))) n) s := by
  rw [deviceLuxRes_of_inside h, withLuxRes_of_inside_any_kind hg (ofNat_index_lt h)]
  rfl

/-! ### RDLUX by the answers of its reads -/

section
variable {g : BitVec 4} {t : Option (BitVec 3)} {w : Word} {s u : State}

theorem exec_rdlux_of_bound (hb : s.bound = true) : exec .rdlux s = .next (readGain s) :=
  congrArg Host.Outcome.next (gate_of_bound hb _)

theorem readGain_of_ok (h : memRead 0 s = (.ok w, u)) :
    readGain s = readTime (BitVec.ofNat 4 (w.toNat / 2048 % 4)) u := by
  rw [← gain_eq]
  exact readThen_of_ok h _

theorem readGain_of_fail (h : memRead 0 s = (.fail, u)) : readGain s = { u with rsp := some (.err .busError) } :=
  readThen_of_fail h _

theorem readGain_of_silent (h : memRead 0 s = (.silent, u)) : readGain s = { u with pending := some .luxGain } :=
  readThen_of_silent h _

theorem readTime_of_ok (h : memRead 0 s = (.ok w, u)) : readTime g s = readCount g (timeOf w) u :=
  readThen_of_ok h _

theorem readTime_of_fail (h : memRead 0 s = (.fail, u)) : readTime g s = { u with rsp := some (.err .busError) } :=
  readThen_of_fail h _

theorem readTime_of_silent (h : memRead 0 s = (.silent, u)) :
    readTime g s = { u with pending := some (.luxTime g) } :=
  readThen_of_silent h _

theorem readCount_of_ok (h : memRead 4 s = (.ok w, u)) :
    readCount g t s = withLuxRes .invalidDeviceState (deviceLuxRes g t) (illuminance w) u :=
  readThen_of_ok h _

/-- The guard stands after the third read (R118 step 7). -/
theorem readCount_of_ok_none (h : memRead 4 s = (.ok w, u)) :
    readCount g none s = { u with rsp := some (.err .invalidDeviceState) } :=
  readCount_of_ok h

theorem readCount_of_fail (h : memRead 4 s = (.fail, u)) :
    readCount g t s = { u with rsp := some (.err .busError) } :=
  readThen_of_fail h _

theorem readCount_of_silent (h : memRead 4 s = (.silent, u)) :
    readCount g t s = { u with pending := some (.luxCount g t) } :=
  readThen_of_silent h _

/-- With both configuration words read, RDLUX goes on from its third read with the gain of the first word and the time
of the second (R118, R137). -/
theorem exec_rdlux_of_words {s1 s2 : State} {c1 c2 : Word} (hb : s.bound = true) (h1 : memRead 0 s = (.ok c1, s1))
    (h2 : memRead 0 s1 = (.ok c2, s2)) :
    exec .rdlux s = .next (readCount (BitVec.ofNat 4 (c1.toNat / 2048 % 4)) (timeOf c2) s2) := by
  rw [exec_rdlux_of_bound hb, readGain_of_ok h1, readTime_of_ok h2]

/-- The lookup on the reference device, by the gain and the time that register 0 holds. -/
theorem exec_rdlux_of_up_lookup (hb : s.bound = true) (hup : s.ReferenceUp) :
    exec .rdlux s = .next (withLuxRes .invalidDeviceState
      (deviceLuxRes (BitVec.ofNat 4 ((s.mem.reg 0).toNat / 2048 % 4)) (timeOf (s.mem.reg 0)))
      (illuminance (s.mem.reg 4))
      { s with trace := s.trace ++
        [.read 0 (some (s.mem.reg 0)), .read 0 (some (s.mem.reg 0)), .read 4 (some (s.mem.reg 4))] }) := by
  rw [← gain_eq]
  exact exec_rdlux_of_up hb hup

/-- Whether or not the host holds a further command at the port, a waiting block's command goes on (R41 item 3, R143). -/
theorem step_of_waiting {p : Wait} (hp : s.pending = some p)
    (hi : s.inputs = [] ∨ ∃ c rest, s.inputs = .command c :: rest) :
    step s = .next (resumeAt p { s with pending := none }) := by
  rcases hi with hi | ⟨c, rest, hi⟩
  · simp only [step, nextEvent, hi, hp]
  · exact step_of_busy hp hi

end

end Sys2Proof.Machine
end

