-- ==== Sys2Proof/Proofs/ReadLux.lean ====
section
/-! PROOFS. The statements on the illuminance read family (`45_readlux.md`). -/

namespace Sys2Proof.Proofs

open Sys2Proof Sys2Proof.Machine

/-- Settles O50: the reference device gives both reads of the configuration the same word, and with its time in the
table the lookup is LUXMUL's. -/
theorem rdluxComputesTheDevicesIlluminance : Obligations.RdluxComputesTheDevicesIlluminance := by
  intro s hb hup
  refine ⟨fun h => ?_, fun h => ?_⟩
  · have hg := ofNat_gain_lt (s.mem.reg 0)
    refine ⟨_, _, ?_, exec_luxmul_of_inside hg (ofNat_index_lt h) _ s, rfl⟩
    rw [exec_rdlux_of_up_lookup hb hup, withDeviceLuxRes_of_inside hg h,
      exec_luxmul_of_inside hg (ofNat_index_lt h)]
  · rw [exec_rdlux_of_up_lookup hb hup, timeOf_of_outside h]
    rfl

/-- Settles O51: by the answers of the three reads, and after three words by the time. -/
theorem rdluxOutcomes : Obligations.RdluxOutcomes := by
  intro s s1 s2 s3 c1 c2 n hb
  refine ⟨fun h1 => ?_, fun h1 h2 => ?_, fun h1 h2 h3 => ?_, fun h1 h2 h3 ht => ?_, fun h1 h2 h3 ht => ?_⟩
  · rw [exec_rdlux_of_bound hb, readGain_of_fail h1]
  · rw [exec_rdlux_of_bound hb, readGain_of_ok h1, readTime_of_fail h2]
  · rw [exec_rdlux_of_words hb h1 h2, readCount_of_fail h3]
  · rw [exec_rdlux_of_words hb h1 h2, timeOf_of_outside ht, readCount_of_ok_none h3]
  · rw [exec_rdlux_of_words hb h1 h2, readCount_of_ok h3, withDeviceLuxRes_of_inside (ofNat_gain_lt c1) ht]

/-- Settles O60: the step resumes the command in progress, which ends by the answers of the reads it has left. -/
theorem waitingRdluxFailsOrWaitsAtItsLaterReads : Obligations.WaitingRdluxFailsOrWaitsAtItsLaterReads := by
  intro s u u' g w n hi
  refine ⟨fun hp => ?_, fun t hp => ?_⟩ <;> rw [step_of_waiting hp hi, resumeAt]
  · refine ⟨fun h => ?_, fun h => ?_, fun h => ?_⟩
    · rw [readTime_of_fail h]
    · rw [readTime_of_silent h]
    · rw [readTime_of_ok h]
      refine ⟨fun h4 => ?_, fun h4 => ⟨timeOf w, ?_, timeOf_elim w⟩, fun h4 ht => ?_⟩
      · rw [readCount_of_fail h4]
      · rw [readCount_of_silent h4]
      · rw [timeOf_of_outside ht, readCount_of_ok_none h4]
  · refine ⟨fun h => ?_, fun h => ?_, fun h ht => ?_⟩
    · rw [readCount_of_fail h]
    · rw [readCount_of_silent h]
    · rw [ht, readCount_of_ok_none h]

/-- Settles O52: each read has a wait of its own, which holds what the reads before it gave. -/
theorem rdluxWaitsAtAnyOfItsReads : Obligations.RdluxWaitsAtAnyOfItsReads := by
  intro s s1 s2 s3 c1 c2 hb
  refine ⟨fun h1 => ?_, fun h1 h2 => ?_, fun h1 h2 h3 => ⟨timeOf c2, ?_, timeOf_elim c2⟩⟩
  · rw [exec_rdlux_of_bound hb, readGain_of_silent h1]
  · rw [exec_rdlux_of_bound hb, readGain_of_ok h1, readTime_of_silent h2]
  · rw [exec_rdlux_of_words hb h1 h2, readCount_of_silent h3]

end Sys2Proof.Proofs
end

