-- ==== Sys2Proof/Proofs/ExceptionsLaws.lean ====
section
/-! SUPPORT. What the end of an operation (`Ends`) says of one that failed, what a waiting block's answer comes from,
and the steps that stop (`60_exceptions.md` R125, R127). -/

namespace Sys2Proof.Machine

section
variable {L : Prop} {b : Bool} {E : List ErrorKind} {n : Nat} {s t : State} {k : ErrorKind}

/-- An operation that answers an error has raised one of its kinds, where the environment's turns had left the state,
and none of its transactions is a successful write (R127). -/
theorem Ends.raised (h : Ends L b E n s t) (hr : s.rsp = none) (hk : t.rsp = some (.err k)) :
    k ∈ E ∧ ∃ new, t = raise k { turnsTaken new.length s with trace := s.trace ++ new } ∧
      ∀ x ∈ new, ∀ a w, x ≠ .write a w true := by
  obtain ⟨new, -, -, -, -, -, -, ⟨v, hv, -⟩ | ⟨k', hmem, rfl, hwrite, -⟩ | ⟨p, hrsp, -⟩⟩ := h
  · simp [hv] at hk
  · obtain rfl : k' = k := by simpa using hk
    exact ⟨hmem, new, rfl, hwrite⟩
  · simp [hrsp, hr] at hk

/-- An operation that answers an error leaves `bound`, the command in progress and the host's inputs as they were, and
the device too unless the environment changes it (R127, R121). -/
theorem Ends.frame_of_error (h : Ends L b E n s t) (hr : s.rsp = none) (hk : t.rsp = some (.err k)) :
    t.bound = s.bound ∧ t.pending = s.pending ∧ t.inputs = s.inputs ∧ (s.turns = [] → t.mem = s.mem) := by
  obtain ⟨-, new, rfl, -⟩ := h.raised hr hk
  obtain ⟨⟨fb, fp, -, fi⟩, -⟩ := turnsTaken_frame new.length s
  exact ⟨fb, fp, fi, fun hturns => by simp [turnsTaken_of_no_turns _ hturns]⟩

/-- What a waiting block answers is the answer of its command in progress: an act of the outside world gives none
(R39). -/
theorem eq_resumeAt_of_response {p : Wait} (hp : s.pending = some p) (hr : s.rsp = none) (h : step s = .next t)
    (ht : t.rsp ≠ none) : t = resumeAt p { s with pending := none } := by
  rcases step_cases_of_pending hp h with ⟨c, rest, rfl⟩ | hresume
  · obtain ⟨⟨-, -, fr, -⟩, -⟩ := applyChange_frame c { s with inputs := rest }
    exact absurd (fr.trans hr) ht
  · exact hresume

/-- A waiting command that answers an error ends as the operation it resumes does. -/
theorem resume_ends_of_error {p : Wait} (hp : s.pending = some p) (hr : s.rsp = none) (h : step s = .next t)
    (hk : t.rsp = some (.err k)) :
    Ends (p.legal s.bound = true) (p == .initWrite) p.errors p.transactionsLeft { s with pending := none } t := by
  obtain rfl := eq_resumeAt_of_response hp hr h (by simp [hk])
  exact resume_ends p { s with pending := none }

/-- With nothing presented and no command in progress nothing happens (R9, R11). -/
theorem step_of_idle (hi : s.inputs = []) (hp : s.pending = none) : step s = .next s := by
  simp only [step, nextEvent, hi, hp]

/-- A reset between commands is carried out (R133). -/
theorem step_of_reset {rest : List Input} (hp : s.pending = none) (hi : s.inputs = .reset :: rest) :
    step s = .next (resetBlock { s with inputs := rest }) := by
  simp only [step, nextEvent, hi, hp]

/-- A reset during a command is refused (R133). -/
theorem step_of_reset_in_command {p : Wait} {rest : List Input} (hp : s.pending = some p)
    (hi : s.inputs = .reset :: rest) : step s = .refused .resetDuringCommand := by
  simp only [step, nextEvent, hi, hp]

/-- An idle block takes every command word, and the step answers a next state: no instruction stops the machine
(R127). -/
theorem exists_next_of_command {c : Word32} {rest : List Input} (hp : s.pending = none)
    (hi : s.inputs = .command c :: rest) : ∃ t, step s = .next t := by
  cases hd : decode c with
  | ok i =>
    obtain ⟨t, he, -⟩ := exec_ends i { s with inputs := rest, rsp := none }
    exact ⟨t, (step_of_accepted hp hi hd).trans he⟩
  | error r => exact ⟨_, step_of_refused hp hi hd⟩

end

end Sys2Proof.Machine
end

