-- ==== Sys2Proof/Proofs/Exceptions.lean ====
section
/-! PROOFS. The statements on the error kinds, on failed operations and on the steps that stop (`60_exceptions.md`). -/

namespace Sys2Proof.Proofs

open Sys2Proof Sys2Proof.Machine

/-- Settles O53: an operation and a resumed command end as their rows of the status table say. -/
theorem errorsAreThoseOfTheStatusTable : Obligations.ErrorsAreThoseOfTheStatusTable := by
  refine ⟨fun i s hr => ?_, fun s t p hp hr h k hk => ?_⟩
  · obtain ⟨t, he, hends⟩ := exec_ends i s
    exact ⟨t, he, fun k hk => (hends.raised hr hk).1⟩
  · exact ((resume_ends_of_error hp hr h hk).raised hr hk).1

/-- Settles O54: an operation that failed raised its kind where the environment's turns had left the state; for a
resumed command that is the state without the command in progress, of which the environment takes no account. -/
theorem failedOperationChangesNothing : Obligations.FailedOperationChangesNothing := by
  refine ⟨fun i s t k hr hp h hk => ?_, fun s t p k hp hr h hk => ?_⟩
  · obtain ⟨t', he, hends⟩ := exec_ends i s
    obtain rfl : t' = t := by simpa [he] using h
    obtain ⟨hbound, hpend, hinputs, hmem⟩ := hends.frame_of_error hr hk
    obtain ⟨-, hraised⟩ := hends.raised hr hk
    exact ⟨hbound, hpend.trans hp, hinputs, hmem, hraised⟩
  · have hends := resume_ends_of_error hp hr h hk
    obtain ⟨hbound, hpend, hinputs, hmem⟩ := hends.frame_of_error hr hk
    obtain ⟨-, new, ht, hwrite⟩ := hends.raised hr hk
    have hturns : turnsTaken new.length { s with pending := none } = { turnsTaken new.length s with
        pending := none, trace := s.trace } := turnsTaken_with new.length s none s.trace
    rw [hturns] at ht
    exact ⟨hbound, hpend, hinputs, hmem, new, ht, hwrite⟩

/-- Settles O59: by the first input, and whether a command is in progress; only a reset with one is refused. -/
theorem stepStopsOnlyForResetDuringCommand : Obligations.StepStopsOnlyForResetDuringCommand := by
  refine fun s => ⟨?_, step_of_idle⟩
  rcases hi : s.inputs with _ | ⟨c | _ | c, rest⟩ <;> rcases hp : s.pending with _ | p
  · exact .inl ⟨s, step_of_idle hi hp⟩
  · exact .inl ⟨_, step_of_waiting hp (.inl hi)⟩
  · exact .inl (exists_next_of_command hp hi)
  · exact .inl ⟨_, step_of_busy hp hi⟩
  · exact .inl ⟨_, step_of_reset hp hi⟩
  · exact .inr ⟨step_of_reset_in_command hp hi, nofun, rest, rfl⟩
  · exact .inl ⟨_, step_of_world hi⟩
  · exact .inl ⟨_, step_of_world hi⟩

/-- Settles O5: the decoder refuses the word, and the block answers so before it looks at `bound` (R124). -/
theorem undefinedOpAnswersIllegalCommand : Obligations.UndefinedOpAnswersIllegalCommand :=
  fun _ _ _ hp hi hop => step_of_refused hp hi (decode_illegal hop)

end Sys2Proof.Proofs
end

