-- ==== Sys2Proof/Proofs/HazardLaws.lean ====
section
/-! SUPPORT. A transaction that the transport does not answer, or carries out on the device as the environment's turn
left it (`20_memory.md` R40), and a waiting command that goes on (`70_reset_and_hazards.md` R143). -/

namespace Sys2Proof.Machine

/-! ### A transport that does not answer -/

section
variable {s : State}

/-- With nothing scripted, a transport that hangs leaves a read unanswered, and nothing changes (R143). -/
theorem memRead_of_hung (hturns : s.turns = []) (hline : s.line = .hung) (a : Byte) : memRead a s = (.silent, s) := by
  simp [memRead, takeTurn_of_no_turns hturns, hline, treatment]

/-- It leaves a write unanswered too. -/
theorem memWrite_of_hung (hturns : s.turns = []) (hline : s.line = .hung) (a : Byte) (v : Word) :
    memWrite a v s = (.silent, s) := by
  simp [memWrite, takeTurn_of_no_turns hturns, hline, treatment]

/-- A command that goes on before such a transport waits for the same transaction as before. -/
theorem resumeAt_of_hung (hturns : s.turns = []) (hline : s.line = .hung) (p : Wait) : resumeAt p s = await p s := by
  have hread := memRead_of_hung hturns hline
  have hwrite := memWrite_of_hung hturns hline
  cases p with
  | rdcfg | get | setRead | luxGain | luxTime | luxCount => exact readThen_of_silent (hread _) _
  | setWrite | initWrite => exact writeThen_of_silent (hwrite _ _) _

end

/-! ### A transaction carried out after the environment's turn -/

section
variable {s : State} {a : Byte} {rest : List Turn}

/-- A scripted turn: its changes happen, then its reply is taken (R39). -/
theorem takeTurn_of_turn {cs : List Change} {r : Reply} (h : s.turns = ⟨cs, r⟩ :: rest) :
    takeTurn s = (r, cs.foldl (fun s c => applyChange c s) { s with turns := rest }) := by
  simp only [takeTurn, h]

/-- Before a turn without changes, a read answers what the register holds (R40). -/
theorem memRead_of_quiet_turn (h : s.turns = ⟨[], .asLine⟩ :: rest) (hline : s.line = .up) (ha : mapped a = true) :
    memRead a s = (.ok (s.mem.reg a), { s with
      turns := rest, trace := s.trace ++ [.read a (some (s.mem.reg a))] }) := by
  simp [memRead, takeTurn_of_turn h, hline, treatment, ha, State.record]

/-- After a turn in which another master writes the same register, a write stores its word over the other's
(R39, R40). -/
theorem memWrite_of_turn_at_register {other : Word} (h : s.turns = ⟨[.reg a other], .asLine⟩ :: rest)
    (hline : s.line = .up) (ha : mapped a = true) (v : Word) :
    memWrite a v s = (.ok (), { s with
      mem := (s.mem.setReg a other).setReg a v, turns := rest, trace := s.trace ++ [.write a v true] }) := by
  simp [memWrite, carryWrite, takeTurn_of_turn h, applyChange, hline, treatment, ha, State.record]

end

/-! ### A waiting RDLUX with its time in the table -/

/-- With the gain and the time it waits with in the table, RDLUX answers from its third read on what LUXMUL answers
(R98, R118). -/
theorem readCount_eq_exec_luxmul {g : BitVec 4} {l : BitVec 3} {n : Word} {s u : State} (hg : g.toNat < 4)
    (hl : l.toNat < 6) (h : memRead 4 s = (.ok n, u)) :
    .next (readCount g (some l) s) = exec (.luxmul g (l.setWidth 4) n) u := by
  have ht : (l.setWidth 4).toNat < 6 := by rwa [BitVec.toNat_setWidth_of_le (by decide)]
  rw [readCount_of_ok h, deviceLuxRes, Option.bind_some, withLuxRes_of_inside_any_kind hg ht]
  rfl

end Sys2Proof.Machine
end

