-- ==== Sys2Proof/Proofs/Hazards.lean ====
section
/-! PROOFS. The statements on reset, waiting commands and other masters of the bus (`70_reset_and_hazards.md`). -/

namespace Sys2Proof.Proofs

open Sys2Proof Sys2Proof.Machine

/-- Settles O9: the step resumes the command in progress. One that waits for its first transaction resumes where its
gate leads; a later one ends by the answers of the transactions it has left. -/
theorem waitingCommandGoesOnFromItsTransaction : Obligations.WaitingCommandGoesOnFromItsTransaction := by
  intro s p hp hi
  have hstep := step_of_waiting hp hi
  generalize hs0 : ({ s with pending := none } : State) = s0 at hstep ⊢
  have hbound : s0.bound = s.bound := hs0 ▸ rfl
  refine ⟨?rdcfg, ?get, ?setRead, ?initWrite, ?luxGain, ?setWrite, ?luxTime, ?luxCount⟩
  case rdcfg =>
    rintro rfl hb
    rw [hstep, resumeAt, exec, execRdcfg, gate_of_bound (hbound.trans hb)]
  case get =>
    rintro f rfl hb
    rw [hstep, resumeAt, exec_getter, gate_of_bound (hbound.trans hb)]
  case setRead =>
    rintro f v rfl hb hv
    rw [hstep, resumeAt, exec_setter_of_legal hv (hbound.trans hb)]
  case initWrite =>
    rintro q rfl hq
    rw [hstep, resumeAt, exec_init_of_odd hq]
  case luxGain =>
    rintro rfl hb
    rw [hstep, resumeAt, exec_rdlux_of_bound (hbound.trans hb)]
  case setWrite =>
    rintro w u rfl
    rw [hstep, resumeAt]
    exact ⟨fun hw => by rw [writeConfig_of_ok hw], fun hw => by rw [writeConfig_of_fail hw],
      fun hw => by rw [writeConfig_of_silent hw]⟩
  case luxTime =>
    rintro g w n u u' rfl hg h0 h4 ht
    rw [hstep, resumeAt, readTime_of_ok h0, readCount_of_ok h4, withDeviceLuxRes_of_inside hg ht]
  case luxCount =>
    rintro g l n u rfl hg hl h4
    rw [hstep, resumeAt, readCount_eq_exec_luxmul hg hl h4]

/-- Settles O46: the setter computes its word from the one it read, and its write replaces whatever the other master has
put into register 0 since. -/
theorem interleavedWriteIsLost : Obligations.InterleavedWriteIsLost := by
  intro f v s other hv hb hline hturns
  refine ⟨_, exec_setter_of_legal hv hb, ?_⟩
  rw [modifyField_of_ok (memRead_of_quiet_turn hturns hline rfl),
    writeConfig_of_ok (memWrite_of_turn_at_register (s := { s with turns := _, trace := _ }) rfl hline rfl _)]
  exact ⟨rfl, (congrArg BitVec.toNat (Memory.reg_setReg_same _ 0 _)).trans (setWord_toNat hv _)⟩

/-- Settles O2: whether a command is in progress decides. -/
theorem resetBetweenCommandsClearsBound : Obligations.ResetBetweenCommandsClearsBound := by
  refine fun s rest hi => ⟨fun hp => ?_, fun hp => ?_⟩
  · rw [step_of_reset hp hi, resetBlock, ← hp]
  · obtain ⟨p, hp⟩ := Option.ne_none_iff_exists'.mp hp
    exact step_of_reset_in_command hp hi

/-- Settles O8: the step resumes the command in progress, which waits again for the same transaction. -/
theorem unansweredTransactionStaysStuck : Obligations.UnansweredTransactionStaysStuck := by
  intro s p hp hline hturns hi
  rw [step_of_waiting hp hi, resumeAt_of_hung (s := { s with pending := none }) hturns hline, await, ← hp]

end Sys2Proof.Proofs
end
